-- ==== Sys2Proof/Word.lean ====
section
/-! DEFINITION. The machine's bit-vector widths (00_scope.md R8; 30_encoding.md R71). -/

namespace Sys2Proof

/-- A memory byte or a general register: 8 bits, unsigned (10_state.md R21). -/
abbrev Byte := BitVec 8

/-- An instruction word, `I`, `PC` or a return address: 16 bits (10_state.md R23, R24, R25). -/
abbrev Word := BitVec 16

/-- A 4-bit field: a register selector X or Y, or the immediate N (30_encoding.md R71). -/
abbrev Nibble := BitVec 4

/-- The 12-bit address operand NNN (30_encoding.md R71). -/
abbrev Addr := BitVec 12

end Sys2Proof
end

