-- ==== Sys2Proof/Config.lean ====
section
/-! DEFINITION. The implementation parameters (00_scope.md R6) and the free values. -/

namespace Sys2Proof

/-- `H_EDGE`: what a sprite does at the right edge (43_display.md R154). -/
inductive HEdge where
  | wrap
  | clip
deriving DecidableEq, Repr

/-- `SHL_SEL`: the low nibble of the shift-left opcode, 0x8 or 0xE (30_encoding.md R75). -/
inductive ShlSel where
  | low8
  | lowE
deriving DecidableEq, Repr

/-- `VF_ORDER`: the order of the flag write and the result write (42_register_alu.md R120). -/
inductive VfOrder where
  | flagThenResult
  | resultThenFlag
deriving DecidableEq, Repr

/-- `FX0A_MODE`: whether FX0A waits for a key or does nothing (44_keypad.md R172, R175). -/
inductive Fx0aMode where
  | wait
  | noop
deriving DecidableEq, Repr

/-- `MEM_SIZE`, fixed (00_scope.md R6; 20_memory.md R50). -/
def memSize : Nat := 4096

/-- `FONT_BASE`, fixed (00_scope.md R6). -/
def fontBase : Nat := 0

/-- `FONT_SIZE`, fixed: 16 glyphs of 5 bytes (00_scope.md R6). -/
def fontSize : Nat := 80

/-- The parameters of 00_scope.md R6 that the spec leaves to the model's user, fixed for a run. Their legal
ranges are `Config.legal` (WellFormed.lean). -/
structure Config where
  /-- `STACK_DEPTH`, 12..16 (10_state.md R25). -/
  stackDepth  : Nat
  /-- `FONT`, glyph k at bytes 5k..5k+4 (10_state.md R39). -/
  font        : Vector Byte 80
  /-- `ENTRY`, the program's load offset, 80..MEM_SIZE (70_reset_and_hazards.md R246). -/
  entry       : Nat
  /-- `DISP_W`, at least 1 (10_state.md R28). -/
  dispW       : Nat
  /-- `DISP_H`, at least 1 (10_state.md R28). -/
  dispH       : Nat
  /-- `H_EDGE`. -/
  hEdge       : HEdge
  /-- `SHL_SEL`. -/
  shlSel      : ShlSel
  /-- `VF_ORDER`. -/
  vfOrder     : VfOrder
  /-- `FX0A_MODE`. -/
  fx0aMode    : Fx0aMode
  /-- `CANONICAL_FX` (46_fx_extension.md R180). -/
  canonicalFx : Bool
deriving DecidableEq, Repr

/-- The default `FONT`: the table of 10_state.md R39, one glyph a line. The spec marks it as general
knowledge (93_implementation_defined.md G1; log entry 18: PRESUMED, unsafe). -/
def defaultFont : Vector Byte 80 :=
  #v[0xF0, 0x90, 0x90, 0x90, 0xF0,
     0x20, 0x60, 0x20, 0x20, 0x70,
     0xF0, 0x10, 0xF0, 0x80, 0xF0,
     0xF0, 0x10, 0xF0, 0x10, 0xF0,
     0x90, 0x90, 0xF0, 0x10, 0x10,
     0xF0, 0x80, 0xF0, 0x10, 0xF0,
     0xF0, 0x80, 0xF0, 0x90, 0xF0,
     0xF0, 0x10, 0x20, 0x40, 0x40,
     0xF0, 0x90, 0xF0, 0x90, 0xF0,
     0xF0, 0x90, 0xF0, 0x10, 0xF0,
     0xF0, 0x90, 0xF0, 0x90, 0x90,
     0xE0, 0x90, 0xE0, 0x90, 0xE0,
     0xF0, 0x80, 0x80, 0x80, 0xF0,
     0xE0, 0x90, 0x90, 0x90, 0xE0,
     0xF0, 0x80, 0xF0, 0x80, 0xF0,
     0xF0, 0x80, 0xF0, 0x80, 0x80]

/-- The defaults of 00_scope.md R6. -/
def Config.default : Config where
  stackDepth  := 16
  font        := defaultFont
  entry       := 0x200
  dispW       := 64
  dispH       := 32
  hEdge       := .wrap
  shlSel      := .low8
  vfOrder     := .flagThenResult
  fx0aMode    := .wait
  canonicalFx := false

/-- FREE VALUE: the `n`-th byte the oracle draws, any value 0..255 (10_state.md R43; 42_register_alu.md R133;
93_implementation_defined.md U7; log entry 11: DESIGN CHOICE for the form, safe). -/
opaque Config.randomByte : Nat → BitVec 8

end Sys2Proof
end

