-- ==== Sys2Proof/Syntax.lean ====
section
/-! DEFINITION. The instruction set: one constructor for each row of spec/opcode_table.json, in the table's order
(30_encoding.md R72). -/

namespace Sys2Proof

/-- The instructions. Every operand is a field of the word (30_encoding.md R71). `shr` and `shl` carry the Y field
they do not use (30_encoding.md R74), so that an instruction stands for exactly one word (log entry 23). -/
inductive Instr where
  /-- 00E0, CLS (43_display.md R150) -/
  | cls
  /-- 00EE, RET (41_control_flow.md R102) -/
  | ret
  /-- 1NNN, JP NNN (R103) -/
  | jp (nnn : Addr)
  /-- 2NNN, CALL NNN (R104) -/
  | call (nnn : Addr)
  /-- 3XNN, SE VX, NN (R105) -/
  | seImm (x : Nibble) (nn : Byte)
  /-- 4XNN, SNE VX, NN (R106) -/
  | sneImm (x : Nibble) (nn : Byte)
  /-- 5XY0, SE VX, VY (R107) -/
  | seReg (x y : Nibble)
  /-- 6XNN, LD VX, NN (42_register_alu.md R121) -/
  | ldImm (x : Nibble) (nn : Byte)
  /-- 7XNN, ADD VX, NN (R122) -/
  | addImm (x : Nibble) (nn : Byte)
  /-- 8XY0, LD VX, VY (R123) -/
  | ldReg (x y : Nibble)
  /-- 8XY1, OR VX, VY (R124) -/
  | orReg (x y : Nibble)
  /-- 8XY2, AND VX, VY (R125) -/
  | andReg (x y : Nibble)
  /-- 8XY3, XOR VX, VY (R126) -/
  | xorReg (x y : Nibble)
  /-- 8XY4, ADD VX, VY (R127) -/
  | addReg (x y : Nibble)
  /-- 8XY5, SUB VX, VY (R128) -/
  | sub (x y : Nibble)
  /-- 8XY6, SHR VX (R129) -/
  | shr (x y : Nibble)
  /-- 8XY7, SUBN VX, VY (R130) -/
  | subn (x y : Nibble)
  /-- 8XY8 or 8XYE, SHL VX (R131) -/
  | shl (x y : Nibble)
  /-- 9XY0, SNE VX, VY (41_control_flow.md R108) -/
  | sneReg (x y : Nibble)
  /-- ANNN, LD I, NNN (42_register_alu.md R132) -/
  | ldI (nnn : Addr)
  /-- BNNN, JP V0, NNN (41_control_flow.md R109) -/
  | jpV0 (nnn : Addr)
  /-- CXNN, RND VX, NN (42_register_alu.md R133) -/
  | rnd (x : Nibble) (nn : Byte)
  /-- DXYN, DRW VX, VY, N (43_display.md R152) -/
  | drw (x y n : Nibble)
  /-- EX9E, SKP VX (44_keypad.md R170) -/
  | skp (x : Nibble)
  /-- EXA1, SKNP VX (R171) -/
  | sknp (x : Nibble)
  /-- FX0A, LD VX, K (R172, R175) -/
  | ldK (x : Nibble)
  /-- FX07, LD VX, DT (46_fx_extension.md R181) -/
  | ldVxDt (x : Nibble)
  /-- FX15, LD DT, VX (R182) -/
  | ldDt (x : Nibble)
  /-- FX18, LD ST, VX (R183) -/
  | ldSt (x : Nibble)
  /-- FX1E, ADD I, VX (R184) -/
  | addI (x : Nibble)
  /-- FX29, LD F, VX (R185) -/
  | ldF (x : Nibble)
  /-- FX33, LD B, VX (R186) -/
  | ldB (x : Nibble)
  /-- FX55, LD [I], VX (R187) -/
  | ldStore (x : Nibble)
  /-- FX65, LD VX, [I] (R188) -/
  | ldLoad (x : Nibble)
deriving DecidableEq, Repr

end Sys2Proof
end

