-- ==== Sys2Proof/WellFormed.lean ====
section
/-! DEFINITION. Which configurations have a meaning (00_scope.md R7), and which instructions belong to the
instruction set under a configuration (30_encoding.md R72). The operands' widths are in their types. -/

namespace Sys2Proof

/-- The legal ranges of 00_scope.md R6 and R7 (also 70_reset_and_hazards.md R246). -/
def Config.legal (c : Config) : Bool :=
  decide (12 ≤ c.stackDepth) && decide (c.stackDepth ≤ 16) &&
  decide (fontSize ≤ c.entry) && decide (c.entry ≤ memSize) &&
  decide (1 ≤ c.dispW) && decide (1 ≤ c.dispH)

/-- The instruction's row is one of the eight of 46_fx_extension.md (R180). -/
def Instr.isExtension : Instr → Bool
  | .ldVxDt _ | .ldDt _ | .ldSt _ | .addI _ | .ldF _ | .ldB _ | .ldStore _ | .ldLoad _ => true
  | .cls | .ret | .jp _ | .call _ | .seImm _ _ | .sneImm _ _ | .seReg _ _ | .ldImm _ _ | .addImm _ _ | .ldReg _ _
  | .orReg _ _ | .andReg _ _ | .xorReg _ _ | .addReg _ _ | .sub _ _ | .shr _ _ | .subn _ _ | .shl _ _ | .sneReg _ _
  | .ldI _ | .jpV0 _ | .rnd _ _ | .drw _ _ _ | .skp _ | .sknp _ | .ldK _ => false

/-- The instruction is part of the instruction set under the configuration: the extension's rows only when
`CANONICAL_FX` is true (30_encoding.md R72; 46_fx_extension.md R180). -/
def Instr.wellFormed (c : Config) (i : Instr) : Bool := !i.isExtension || c.canonicalFx

end Sys2Proof
end

