-- ==== Sys2Proof/Decode.lean ====
section
/-! DEFINITION. The decoder, total on any bytes, and after it the encoder (30_encoding.md). -/

namespace Sys2Proof

/-- Why a list of bytes decodes to no instruction. A two-byte word so rejected is an unrecognized opcode, a no-op
(30_encoding.md R76); the names are the lines of R77. -/
inductive Rejection where
  /-- 0NNN other than 00E0 and 00EE. -/
  | zeroFamily
  /-- 5XYn with n not 0. -/
  | seRegSelector
  /-- 8XYn with n in 8..F and not `SHL_SEL`. -/
  | aluSelector
  /-- 9XYn with n not 0. -/
  | sneRegSelector
  /-- EXnn with nn neither 9E nor A1. -/
  | keySelector
  /-- FXnn with nn no enabled selector. -/
  | fxSelector
  /-- Fewer than two bytes. The fetch never gives the decoder that (40_cycle.md R91). -/
  | truncated
deriving DecidableEq, Repr

/-! The fields of a word (30_encoding.md R71). -/

/-- `h`, bits 15..12. -/
def wordH (w : Word) : Nibble := w.extractLsb' 12 4
/-- `X`, bits 11..8. -/
def wordX (w : Word) : Nibble := w.extractLsb' 8 4
/-- `Y`, bits 7..4. -/
def wordY (w : Word) : Nibble := w.extractLsb' 4 4
/-- `N`, bits 3..0. -/
def wordN (w : Word) : Nibble := w.extractLsb' 0 4
/-- `NN`, bits 7..0. -/
def wordNN (w : Word) : Byte := w.extractLsb' 0 8
/-- `NNN`, bits 11..0. -/
def wordNNN (w : Word) : Addr := w.extractLsb' 0 12

/-- The nibble of `SHL_SEL` (30_encoding.md R75). -/
def shlNibble (c : Config) : Nibble :=
  match c.shlSel with
  | .low8 => 0x8
  | .lowE => 0xE

/-- The 0 family, selected by the whole word (30_encoding.md R73). -/
def decodeZero (w : Word) : Except Rejection Instr :=
  if w = 0x00E0#16 then .ok .cls
  else if w = 0x00EE#16 then .ok .ret
  else .error .zeroFamily

/-- The 8 family, selected by N (30_encoding.md R73, R75). -/
def decodeAlu (c : Config) (w : Word) : Except Rejection Instr :=
  let x := wordX w
  let y := wordY w
  match (wordN w).toNat with
  | 0 => .ok (.ldReg x y)
  | 1 => .ok (.orReg x y)
  | 2 => .ok (.andReg x y)
  | 3 => .ok (.xorReg x y)
  | 4 => .ok (.addReg x y)
  | 5 => .ok (.sub x y)
  | 6 => .ok (.shr x y)
  | 7 => .ok (.subn x y)
  | _ => if wordN w = shlNibble c then .ok (.shl x y) else .error .aluSelector

/-- The E family, selected by NN (30_encoding.md R73). -/
def decodeKey (w : Word) : Except Rejection Instr :=
  if wordNN w = 0x9E#8 then .ok (.skp (wordX w))
  else if wordNN w = 0xA1#8 then .ok (.sknp (wordX w))
  else .error .keySelector

/-- The eight selectors of 46_fx_extension.md (R180 to R188). -/
def decodeFxExtension (w : Word) : Except Rejection Instr :=
  let x := wordX w
  match (wordNN w).toNat with
  | 0x07 => .ok (.ldVxDt x)
  | 0x15 => .ok (.ldDt x)
  | 0x18 => .ok (.ldSt x)
  | 0x1E => .ok (.addI x)
  | 0x29 => .ok (.ldF x)
  | 0x33 => .ok (.ldB x)
  | 0x55 => .ok (.ldStore x)
  | 0x65 => .ok (.ldLoad x)
  | _ => .error .fxSelector

/-- The F family, selected by NN (30_encoding.md R73): 0x0A always, the others with `CANONICAL_FX`. -/
def decodeFx (c : Config) (w : Word) : Except Rejection Instr :=
  if wordNN w = 0x0A#8 then .ok (.ldK (wordX w))
  else if c.canonicalFx then decodeFxExtension w
  else .error .fxSelector

/-- The decoder of 30_encoding.md R82: one match on the family `h`, with every unmatched word rejected by name. -/
def decodeWord (c : Config) (w : Word) : Except Rejection Instr :=
  match (wordH w).toNat with
  | 0x0 => decodeZero w
  | 0x1 => .ok (.jp (wordNNN w))
  | 0x2 => .ok (.call (wordNNN w))
  | 0x3 => .ok (.seImm (wordX w) (wordNN w))
  | 0x4 => .ok (.sneImm (wordX w) (wordNN w))
  | 0x5 => if wordN w = 0#4 then .ok (.seReg (wordX w) (wordY w)) else .error .seRegSelector
  | 0x6 => .ok (.ldImm (wordX w) (wordNN w))
  | 0x7 => .ok (.addImm (wordX w) (wordNN w))
  | 0x8 => decodeAlu c w
  | 0x9 => if wordN w = 0#4 then .ok (.sneReg (wordX w) (wordY w)) else .error .sneRegSelector
  | 0xA => .ok (.ldI (wordNNN w))
  | 0xB => .ok (.jpV0 (wordNNN w))
  | 0xC => .ok (.rnd (wordX w) (wordNN w))
  | 0xD => .ok (.drw (wordX w) (wordY w) (wordN w))
  | 0xE => decodeKey w
  | _ => decodeFx c w

/-- Two bytes as the word they store, the first the high byte (20_memory.md R52). -/
def wordOfBytes (hi lo : Byte) : Word := hi ++ lo

/-- The bytes of a word as memory stores them, the high byte first (20_memory.md R52). -/
def bytesOfWord (w : Word) : Byte × Byte := (w.extractLsb' 8 8, w.extractLsb' 0 8)

/-- The decoder on a list of bytes: one instruction from the first two, and the bytes that follow it. It never looks
past the one word (30_encoding.md R79). -/
def decode (c : Config) : List Byte → Except Rejection (Instr × List Byte)
  | hi :: lo :: rest => (decodeWord c (wordOfBytes hi lo)).map (·, rest)
  | _ => .error .truncated

/-- The word is an instruction under the configuration, and not an unrecognized opcode. -/
def recognized (c : Config) (w : Word) : Bool :=
  match decodeWord c w with
  | .ok _ => true
  | .error _ => false

/-- The configuration under which spec/opcode_table.json lists its rows: all 34 enabled, SHL at 8XY8
(30_encoding.md R72, R75; log entry 16). -/
def tableConfig : Config := { Config.default with canonicalFx := true }

/-- `c` with the two parameters that change decoding (30_encoding.md R79) set as the table lists them, where `c` does
not recognize the word and the table does; else `c` (log entry 16). -/
def enabling (c : Config) (w : Word) : Config :=
  if recognized c w then c
  else if recognized tableConfig w then
    { c with canonicalFx := tableConfig.canonicalFx, shlSel := tableConfig.shlSel }
  else c

/-- An instruction word as spec/opcode_table.json numbers it, the bits above `nbits` zero. -/
def tableWord (nbits w : Nat) : Word := BitVec.ofNat 16 (w % 2 ^ nbits)

/-- The instruction the decoder reads from the table's word `w`, laid out in memory order (log entry 16). -/
def decodeTableWord (nbits w : Nat) : Option Instr :=
  let b := bytesOfWord (tableWord nbits w)
  match decode tableConfig [b.1, b.2] with
  | .ok (i, _) => some i
  | .error _ => none

/-! The encoder (30_encoding.md R70, R80; the `encoding` column of spec/opcode_table.json). -/

/-- A word of the shape hNNN. -/
def wordNNNOf (h : Nibble) (nnn : Addr) : Word := h ++ nnn
/-- A word of the shape hXNN. -/
def wordXNNOf (h x : Nibble) (nn : Byte) : Word := h ++ (x ++ nn)
/-- A word of the shape hXYn. -/
def wordXYNOf (h x y n : Nibble) : Word := h ++ (x ++ (y ++ n))

/-- The word of an instruction; only SHL's depends on the configuration (30_encoding.md R75). -/
def encode (c : Config) : Instr → Word
  | .cls => 0x00E0#16
  | .ret => 0x00EE#16
  | .jp nnn => wordNNNOf 0x1 nnn
  | .call nnn => wordNNNOf 0x2 nnn
  | .seImm x nn => wordXNNOf 0x3 x nn
  | .sneImm x nn => wordXNNOf 0x4 x nn
  | .seReg x y => wordXYNOf 0x5 x y 0x0
  | .ldImm x nn => wordXNNOf 0x6 x nn
  | .addImm x nn => wordXNNOf 0x7 x nn
  | .ldReg x y => wordXYNOf 0x8 x y 0x0
  | .orReg x y => wordXYNOf 0x8 x y 0x1
  | .andReg x y => wordXYNOf 0x8 x y 0x2
  | .xorReg x y => wordXYNOf 0x8 x y 0x3
  | .addReg x y => wordXYNOf 0x8 x y 0x4
  | .sub x y => wordXYNOf 0x8 x y 0x5
  | .shr x y => wordXYNOf 0x8 x y 0x6
  | .subn x y => wordXYNOf 0x8 x y 0x7
  | .shl x y => wordXYNOf 0x8 x y (shlNibble c)
  | .sneReg x y => wordXYNOf 0x9 x y 0x0
  | .ldI nnn => wordNNNOf 0xA nnn
  | .jpV0 nnn => wordNNNOf 0xB nnn
  | .rnd x nn => wordXNNOf 0xC x nn
  | .drw x y n => wordXYNOf 0xD x y n
  | .skp x => wordXNNOf 0xE x 0x9E
  | .sknp x => wordXNNOf 0xE x 0xA1
  | .ldK x => wordXNNOf 0xF x 0x0A
  | .ldVxDt x => wordXNNOf 0xF x 0x07
  | .ldDt x => wordXNNOf 0xF x 0x15
  | .ldSt x => wordXNNOf 0xF x 0x18
  | .addI x => wordXNNOf 0xF x 0x1E
  | .ldF x => wordXNNOf 0xF x 0x29
  | .ldB x => wordXNNOf 0xF x 0x33
  | .ldStore x => wordXNNOf 0xF x 0x55
  | .ldLoad x => wordXNNOf 0xF x 0x65

/-- The bytes of an instruction as memory stores them (20_memory.md R52). -/
def encodeBytes (c : Config) (i : Instr) : List Byte :=
  let b := bytesOfWord (encode c i)
  [b.1, b.2]

end Sys2Proof
end

