-- ==== Sys2Proof/Machine/State.lean ====
section
/-! DEFINITION. The machine's state as plain data (10_state.md), the reasons a step can stop, and the state after
reset. -/

namespace Sys2Proof.Machine

/-- The memory (20_memory.md R50), sparse: (address, byte) pairs, addresses strictly rising, no zero byte listed. An
unlisted address reads 0, the power-on value (10_state.md R37; log entry 10). -/
abbrev Memory := List Host.Cell

/-- The memory has its canonical form and lies within the address space. -/
abbrev Memory.wf (m : Memory) : Prop :=
  m.Pairwise (fun a b => a.1 < b.1) ∧ ∀ c ∈ m, c.1 < memSize ∧ c.2 ≠ 0#8

/-- The framebuffer (10_state.md R28), sparse: the linear indices y * DISP_W + x of the lit cells, strictly rising.
An unlisted cell is false (log entry 14). -/
abbrev Framebuffer := List Nat

/-- The framebuffer has its canonical form and every lit cell lies on a screen of `cells` cells. -/
abbrev Framebuffer.wf (fb : Framebuffer) (cells : Nat) : Prop :=
  fb.Pairwise (· < ·) ∧ ∀ k ∈ fb, k < cells

/-- The controller's `state` (10_state.md R30), with one value more for the time before the first successful Load,
when "no machine exists" (10_state.md R37; log entry 4: DEDUCED, safe). -/
inductive RunState where
  | noMachine
  | running
  | paused
  | halted
deriving DecidableEq, Repr

/-- The fault codes of 60_exceptions.md R200. They are recorded in the state's `fault` (R203) and are no reason for a
step to stop. -/
inductive FaultCode where
  /-- 1: 2NNN with `SP = STACK_DEPTH`. -/
  | stackOverflow
  /-- 2: 00EE with `SP = 0`. -/
  | stackUnderflow
  /-- 3: a fetch with `PC + 1 ≥ MEM_SIZE`. -/
  | pcOutOfRange
  /-- 4: a data address at or past `MEM_SIZE`. -/
  | memOutOfRange
  /-- 5: EX9E or EXA1 with `V[X] > 15`. -/
  | keyIndexOutOfRange
deriving DecidableEq, Repr

/-- The numeric code (60_exceptions.md R200). -/
def FaultCode.code : FaultCode → Nat
  | .stackOverflow => 1
  | .stackUnderflow => 2
  | .pcOutOfRange => 3
  | .memOutOfRange => 4
  | .keyIndexOutOfRange => 5

/-- What a Load reports to the host (10_state.md R42; 70_reset_and_hazards.md R243). RomUnreadable is the host's own
and never the core's (R243). -/
inductive LoadResult where
  | loaded
  | romTooLarge
deriving DecidableEq, Repr

/-- The host operations of 10_state.md R41. -/
inductive HostOp where
  | load (rom : List Byte)
  | cycle
  | tick
  | keyDown (k : Nat)
  | keyUp (k : Nat)
  | togglePause
  | quit
deriving DecidableEq, Repr

/-- MachineState (10_state.md R20), the parameters, and the model's own fields. -/
structure State where
  /-- `memory`, 4096 bytes (20_memory.md R50). -/
  memory : Memory
  /-- `V[0]`..`V[15]`; `V[15]` is VF (R21, R22). -/
  v      : Vector Byte 16
  /-- `I` (R23). -/
  i      : Word
  /-- `PC`; between cycles, the address of the next instruction (R24). -/
  pc     : Word
  /-- The live entries of `stack`, the most recent first; `SP` is its length (R25; log entry 9). -/
  stack  : List Word
  /-- `DT` (R27). -/
  dt     : Byte
  /-- `ST` (R27). -/
  st     : Byte
  /-- `fb` (R28; log entry 14). -/
  fb     : Framebuffer
  /-- `key[0]`..`key[15]` (R29). -/
  key    : Vector Bool 16
  /-- `state` (R30). -/
  state  : RunState
  /-- `wait`, the destination register of a pending key wait (R31). -/
  wait   : Option Nibble
  /-- `fault` (R32). -/
  fault  : Option FaultCode
  /-- The result of the last Load, an output (R42; log entry 12). -/
  loadResult : Option LoadResult
  /-- The parameters of 00_scope.md R6, fixed for a run (log entry 1). -/
  cfg    : Config
  /-- The model's own: the host operations still to come; when there is none the host issues Cycle (log entry 6). -/
  inputs : List HostOp
  /-- The model's own: how many bytes the oracle has drawn (R43; log entry 11). -/
  draws  : Nat
deriving DecidableEq, Repr

/-- `SP` (10_state.md R25): the number of live stack entries (log entry 9). -/
def State.sp (s : State) : Nat := s.stack.length

/-- The reasons a step stops with a fault: NONE. Every fault of this machine is taken as a next state, recorded in
`State.fault` with the machine HALTED (60_exceptions.md R203, R207; log entry 7). Safe: no behaviour is lost. -/
inductive Fault where
deriving DecidableEq, Repr

/-- The reasons a step is refused. -/
inductive Refusal where
  /-- An instruction without a meaning, by its mnemonic. No arm of `exec` raises it. Safe. -/
  | notModelled (mnemonic : String)
  /-- Raised by `step` when `State.cfg` lies outside the legal ranges: "the model has no meaning for it"
  (00_scope.md R7; log entry 3). Safe: the spec refuses it. -/
  | illegalConfiguration
  /-- Raised by the host operations KeyDown and KeyUp for an index outside 0..15 (60_exceptions.md R234; log entry
  20). Safe: the spec refuses it. -/
  | keyIndexRefused
deriving DecidableEq, Repr

/-- The machine right after power-on (10_state.md R37; 70_reset_and_hazards.md R240), with the default parameters
(00_scope.md R6). Every spec element holds the spec's own value; `loadResult`, `inputs` and `draws` are the model's
(log entries 6, 11, 12). -/
def State.reset : State where
  memory := []
  v      := Vector.replicate 16 0#8
  i      := 0#16
  pc     := 0#16
  stack  := []
  dt     := 0#8
  st     := 0#8
  fb     := []
  key    := Vector.replicate 16 false
  state  := .noMachine
  wait   := none
  fault  := none
  loadResult := none
  cfg    := Config.default
  inputs := []
  draws  := 0

end Sys2Proof.Machine
end

