-- ==== Sys2Proof/Machine/Ops.lean ====
section
/-! DEFINITION. The named operations over memory, registers, stack, framebuffer and controller, the fetch, and taking
a fault. The spec gives no return from a fault (60_exceptions.md R208): the way out is Load (HostOps.lean). -/

namespace Sys2Proof.Machine

/-! ### Memory (20_memory.md) -/

/-- The byte at an address; an unlisted one reads 0 (10_state.md R37). -/
def Memory.read : Memory → Nat → Byte
  | [], _ => 0#8
  | c :: m, a => if c.1 = a then c.2 else Memory.read m a

/-- Insert a cell before the first cell of a higher address. -/
def Memory.insert : Memory → Host.Cell → Memory
  | [], c => [c]
  | d :: m, c => if c.1 < d.1 then c :: d :: m else d :: Memory.insert m c

/-- Write one byte (20_memory.md R56), keeping the canonical form: a zero byte is not listed. -/
def Memory.write (m : Memory) (a : Nat) (b : Byte) : Memory :=
  let others := m.filter (fun c => c.1 != a)
  if b = 0#8 then others else Memory.insert others (a, b)

/-- Write bytes at consecutive addresses, in order (20_memory.md R60). -/
def Memory.writeBytes : Memory → Nat → List Byte → Memory
  | m, _, [] => m
  | m, a, b :: bs => Memory.writeBytes (Memory.write m a b) (a + 1) bs

/-- All of the `n` one-byte accesses at `a`, `a + 1`, … lie in memory; addresses do not wrap
(20_memory.md R53, R54). No access is always in range (43_display.md R155). -/
def dataInRange (a n : Nat) : Bool := n == 0 || decide (a + n ≤ memSize)

/-! ### Registers (10_state.md R21 to R24) -/

/-- VF (10_state.md R22). -/
def vF : Nibble := 0xF#4

/-- `V[x]`. -/
def State.reg (s : State) (x : Nibble) : Byte := s.v[x.toNat]'x.isLt

/-- `V[x] <- b`. -/
def State.setReg (s : State) (x : Nibble) (b : Byte) : State := { s with v := s.v.set x.toNat b x.isLt }

/-- The pre-advance of a cycle: PC + 2 modulo 2^16 (40_cycle.md R92; 10_state.md R24). -/
def State.advance (s : State) : State := { s with pc := s.pc + 2#16 }

/-- `skip` when the condition holds: PC + 2 modulo 2^16 once more (00_scope.md R11; 41_control_flow.md R110). -/
def State.skipIf (s : State) (c : Bool) : State := if c then { s with pc := s.pc + 2#16 } else s

/-- `PC <- target`. -/
def State.jump (s : State) (target : Word) : State := { s with pc := target }

/-- `Random()`: the next oracle byte, and the state that has drawn it (10_state.md R43). -/
def State.random (s : State) : Byte × State := (Config.randomByte s.draws, { s with draws := s.draws + 1 })

/-! ### The call stack (41_control_flow.md R100, R101) -/

/-- `Push(v)`; `none` where it raises StackOverflow (log entry 9). -/
def State.push (s : State) (a : Word) : Option State :=
  if s.cfg.stackDepth ≤ s.sp then none else some { s with stack := a :: s.stack }

/-- `Pop()`; `none` where it raises StackUnderflow. -/
def State.pop (s : State) : Option (Word × State) :=
  match s.stack with
  | [] => none
  | a :: rest => some (a, { s with stack := rest })

/-- `stack[k]`, for a live entry (10_state.md R25). -/
def State.stackEntry (s : State) (k : Nat) : Option Word := s.stack.reverse[k]?

/-! ### The framebuffer (10_state.md R28) -/

/-- The cell of a linear index. -/
def Framebuffer.lit (fb : Framebuffer) (k : Nat) : Bool := fb.contains k

/-- Insert an index before the first higher one. -/
def Framebuffer.insert : Framebuffer → Nat → Framebuffer
  | [], k => [k]
  | j :: fb, k => if k < j then k :: j :: fb else j :: Framebuffer.insert fb k

/-- `fb[k] <- not fb[k]`, keeping the canonical form. -/
def Framebuffer.toggle (fb : Framebuffer) (k : Nat) : Framebuffer :=
  if Framebuffer.lit fb k then fb.filter (fun j => j != k) else Framebuffer.insert fb k

/-- The linear index of column `x`, row `y` (10_state.md R28). -/
def cellIndex (c : Config) (x y : Nat) : Nat := y * c.dispW + x

/-- `fb[y][x]`. -/
def State.pixel (s : State) (x y : Nat) : Bool := Framebuffer.lit s.fb (cellIndex s.cfg x y)

/-! ### Faults (60_exceptions.md) -/

/-- Taking a fault: the code is recorded and the machine HALTED (60_exceptions.md R203). It is given the state from
before the cycle, so PC is the faulting instruction's address and nothing else has changed (R201, R204; 40_cycle.md
R95; log entries 7 and 8). -/
def raiseFault (code : FaultCode) (s : State) : Host.Outcome State Fault Refusal :=
  .next { s with fault := some code, state := .halted }

/-! ### Fetch (40_cycle.md R91) -/

/-- The word at PC, high byte first, at an even or odd PC (20_memory.md R52, R55); `none` where the fetch raises
PcOutOfRange. -/
def State.fetch (s : State) : Option Word :=
  if memSize ≤ s.pc.toNat + 1 then none
  else some (wordOfBytes (Memory.read s.memory s.pc.toNat) (Memory.read s.memory (s.pc.toNat + 1)))

end Sys2Proof.Machine
end

