-- ==== Sys2Proof/Machine/Operands.lean ====
section
/-! DEFINITION. The operand forms: immediates, addresses through I, sprite geometry, decimal digits. Register
operands are `State.reg` (Ops.lean). -/

namespace Sys2Proof.Machine

/-- `zext_16(NNN)` (30_encoding.md R71). -/
def zext16 (nnn : Addr) : Word := nnn.setWidth 16

/-- `zext_16` of a register (41_control_flow.md R109; 46_fx_extension.md R184). -/
def zextReg (b : Byte) : Word := b.setWidth 16

/-- The address I + offset as an unbounded number (20_memory.md R54). -/
def State.dataAddress (s : State) (offset : Nat) : Nat := s.i.toNat + offset

/-- The `n` accesses at I, I + 1, … lie in memory (20_memory.md R53). -/
def State.dataAccessOk (s : State) (n : Nat) : Bool := dataInRange (s.dataAddress 0) n

/-- The byte at I + offset. -/
def State.dataByte (s : State) (offset : Nat) : Byte := Memory.read s.memory (s.dataAddress offset)

/-- Store bytes at I, I + 1, … (46_fx_extension.md R186, R187). -/
def State.storeData (s : State) (bs : List Byte) : State :=
  { s with memory := Memory.writeBytes s.memory (s.dataAddress 0) bs }

/-- V0..VX (46_fx_extension.md R187). -/
def State.regsUpTo (s : State) (x : Nibble) : List Byte := s.v.toList.take (x.toNat + 1)

/-- V0..VX replaced by the bytes at I..I+X (46_fx_extension.md R188). -/
def State.loadRegsUpTo (s : State) (x : Nibble) : State :=
  { s with v := Vector.ofFn fun k : Fin 16 => if k.val ≤ x.toNat then s.dataByte k.val else s.v[k.val]'k.isLt }

/-- The three decimal digits of a byte, hundreds first (46_fx_extension.md R186). -/
def decimalDigits (v : Byte) : List Byte :=
  [BitVec.ofNat 8 (v.toNat / 100), BitVec.ofNat 8 (v.toNat / 10 % 10), BitVec.ofNat 8 (v.toNat % 10)]

/-- `FONT_BASE + 5 * digit`, the digit the low nibble of a byte (46_fx_extension.md R185). -/
def glyphAddress (v : Byte) : Word := BitVec.ofNat 16 (fontBase + 5 * (v.toNat % 16))

/-- The origin column `V[X] mod DISP_W` (43_display.md R151). -/
def State.originX (s : State) (x : Nibble) : Nat := (s.reg x).toNat % s.cfg.dispW

/-- The origin row `V[Y] mod DISP_H` (43_display.md R151). -/
def State.originY (s : State) (y : Nibble) : Nat := (s.reg y).toNat % s.cfg.dispH

/-- Bit `7 - col` of a sprite byte, the pixel of column `col` (43_display.md R151; 93_implementation_defined.md G2). -/
def spriteBit (b : Byte) (col : Nat) : Bool := b.getLsbD (7 - col)

/-- The screen column of sprite column `col`; `none` where it is clipped (43_display.md R154). -/
def targetColumn (c : Config) (ox col : Nat) : Option Nat :=
  match c.hEdge with
  | .wrap => some ((ox + col) % c.dispW)
  | .clip => if c.dispW ≤ ox + col then none else some (ox + col)

end Sys2Proof.Machine
end

