-- ==== Sys2Proof/Machine/ControlFlow.lean ====
section
/-! DEFINITION. The meanings of the control-flow instructions (41_control_flow.md). A meaning is given the state from
before the cycle and makes the pre-advance of 40_cycle.md R92 itself (log entry 8). -/

namespace Sys2Proof.Machine

/-- 00EE, RET (R102): `PC <- Pop()`. -/
def execRet (s : State) : Host.Outcome State Fault Refusal :=
  match s.advance.pop with
  | none => raiseFault .stackUnderflow s
  | some (a, t) => .next (t.jump a)

/-- 1NNN, JP NNN (R103). -/
def execJp (nnn : Addr) (s : State) : Host.Outcome State Fault Refusal :=
  .next (s.advance.jump (zext16 nnn))

/-- 2NNN, CALL NNN (R104): `Push(PC); PC <- NNN`, PC pre-advanced. -/
def execCall (nnn : Addr) (s : State) : Host.Outcome State Fault Refusal :=
  match s.advance.push s.advance.pc with
  | none => raiseFault .stackOverflow s
  | some t => .next (t.jump (zext16 nnn))

/-- 3XNN, SE VX, NN (R105). -/
def execSeImm (x : Nibble) (nn : Byte) (s : State) : Host.Outcome State Fault Refusal :=
  .next (s.advance.skipIf (s.reg x == nn))

/-- 4XNN, SNE VX, NN (R106). -/
def execSneImm (x : Nibble) (nn : Byte) (s : State) : Host.Outcome State Fault Refusal :=
  .next (s.advance.skipIf (s.reg x != nn))

/-- 5XY0, SE VX, VY (R107). -/
def execSeReg (x y : Nibble) (s : State) : Host.Outcome State Fault Refusal :=
  .next (s.advance.skipIf (s.reg x == s.reg y))

/-- 9XY0, SNE VX, VY (R108). -/
def execSneReg (x y : Nibble) (s : State) : Host.Outcome State Fault Refusal :=
  .next (s.advance.skipIf (s.reg x != s.reg y))

/-- BNNN, JP V0, NNN (R109): the sum is not reduced to 12 bits. -/
def execJpV0 (nnn : Addr) (s : State) : Host.Outcome State Fault Refusal :=
  .next (s.advance.jump (zextReg (s.reg 0#4) + zext16 nnn))

end Sys2Proof.Machine
end

