-- ==== Sys2Proof/Machine/Flags.lean ====
section
/-! DEFINITION. The flag outputs, all written to VF (10_state.md R22), and the common write of flag and result. -/

namespace Sys2Proof.Machine

/-- A flag as the byte stored in VF: 1 or 0. -/
def flagByte (b : Bool) : Byte := if b then 1#8 else 0#8

/-- The carry of a + b: the exact sum exceeds 255 (42_register_alu.md R127). -/
def carryFlag (a b : Byte) : Byte := flagByte (decide (255 < a.toNat + b.toNat))

/-- The no-borrow flag of a - b: b ≤ a (42_register_alu.md R128, R130). -/
def noBorrowFlag (a b : Byte) : Byte := flagByte (decide (b.toNat ≤ a.toNat))

/-- The bit a right shift moves out, `a & 1` (42_register_alu.md R129). -/
def shrFlag (a : Byte) : Byte := flagByte (a.getLsbD 0)

/-- The bit a left shift moves out, `a >> 7` (42_register_alu.md R131). -/
def shlFlag (a : Byte) : Byte := flagByte (a.getLsbD 7)

/-- `WriteFR(flag, res)` (42_register_alu.md R120): where X is F the later write wins. -/
def State.writeFR (s : State) (x : Nibble) (flag res : Byte) : State :=
  match s.cfg.vfOrder with
  | .flagThenResult => (s.setReg vF flag).setReg x res
  | .resultThenFlag => (s.setReg x res).setReg vF flag

end Sys2Proof.Machine
end

