-- ==== Sys2Proof/Machine/Display.lean ====
section
/-! DEFINITION. The meanings of the display instructions (43_display.md). -/

namespace Sys2Proof.Machine

/-- The framebuffer and the collision flag while a sprite is drawn. -/
structure Canvas where
  /-- the cells so far -/
  fb        : Framebuffer
  /-- a set pixel has been cleared (43_display.md R153) -/
  collision : Bool
deriving DecidableEq, Repr

/-- XOR a sprite bit 1 into the cell of linear index `k` (43_display.md R152, R153). -/
def xorCell (p : Canvas) (k : Nat) : Canvas :=
  { fb := Framebuffer.toggle p.fb k, collision := p.collision || Framebuffer.lit p.fb k }

/-- Column `col` of a sprite byte drawn in row `y` (43_display.md R152): a sprite bit 0 and a clipped column do
nothing. -/
def drawColumn (c : Config) (ox y : Nat) (sprite : Byte) (p : Canvas) (col : Nat) : Canvas :=
  match targetColumn c ox col with
  | none => p
  | some x => if spriteBit sprite col then xorCell p (cellIndex c x y) else p

/-- One sprite byte drawn in row `y`, columns 0 to 7 in order (43_display.md R152). -/
def drawRow (c : Config) (ox y : Nat) (sprite : Byte) (p : Canvas) : Canvas :=
  [0, 1, 2, 3, 4, 5, 6, 7].foldl (drawColumn c ox y sprite) p

/-- The sprite's last `n` rows from `row` on, stopping at the bottom edge (43_display.md R152, R154). -/
def drawRows (s : State) (ox oy : Nat) : Nat → Nat → Canvas → Canvas
  | 0, _, p => p
  | n + 1, row, p =>
    if s.cfg.dispH ≤ oy + row then p
    else drawRows s ox oy n (row + 1) (drawRow s.cfg ox (oy + row) (s.dataByte row) p)

/-- 00E0, CLS (R150). -/
def execCls (s : State) : Host.Outcome State Fault Refusal :=
  .next { s.advance with fb := [] }

/-- DXYN, DRW VX, VY, N (R152): every sprite address is checked first (R157), the origin is read before the draw, and
VF is written once, last (R153). -/
def execDrw (x y n : Nibble) (s : State) : Host.Outcome State Fault Refusal :=
  if s.dataAccessOk n.toNat then
    let p := drawRows s (s.originX x) (s.originY y) n.toNat 0 { fb := s.fb, collision := false }
    .next ({ s.advance with fb := p.fb }.setReg vF (flagByte p.collision))
  else raiseFault .memOutOfRange s

end Sys2Proof.Machine
end

