-- ==== Sys2Proof/Machine/FxExtension.lean ====
section
/-! DEFINITION. The meanings of the extension's instructions (46_fx_extension.md), which the decoder gives only when
`CANONICAL_FX` is true (R180; log entries 17 and 18). -/

namespace Sys2Proof.Machine

/-- FX07, LD VX, DT (R181). -/
def execLdVxDt (x : Nibble) (s : State) : Host.Outcome State Fault Refusal :=
  .next (s.advance.setReg x s.dt)

/-- FX15, LD DT, VX (R182). -/
def execLdDt (x : Nibble) (s : State) : Host.Outcome State Fault Refusal :=
  .next { s.advance with dt := s.reg x }

/-- FX18, LD ST, VX (R183). -/
def execLdSt (x : Nibble) (s : State) : Host.Outcome State Fault Refusal :=
  .next { s.advance with st := s.reg x }

/-- FX1E, ADD I, VX (R184): modulo 2^16, VF not written. -/
def execAddI (x : Nibble) (s : State) : Host.Outcome State Fault Refusal :=
  .next { s.advance with i := s.i + zextReg (s.reg x) }

/-- FX29, LD F, VX (R185). -/
def execLdF (x : Nibble) (s : State) : Host.Outcome State Fault Refusal :=
  .next { s.advance with i := glyphAddress (s.reg x) }

/-- FX33, LD B, VX (R186): the range is checked before any write. -/
def execLdB (x : Nibble) (s : State) : Host.Outcome State Fault Refusal :=
  if s.dataAccessOk 3 then .next (s.advance.storeData (decimalDigits (s.reg x)))
  else raiseFault .memOutOfRange s

/-- FX55, LD [I], VX (R187): I is unchanged. -/
def execLdStore (x : Nibble) (s : State) : Host.Outcome State Fault Refusal :=
  if s.dataAccessOk (x.toNat + 1) then .next (s.advance.storeData (s.regsUpTo x))
  else raiseFault .memOutOfRange s

/-- FX65, LD VX, [I] (R188): I is unchanged. -/
def execLdLoad (x : Nibble) (s : State) : Host.Outcome State Fault Refusal :=
  if s.dataAccessOk (x.toNat + 1) then .next (s.advance.loadRegsUpTo x)
  else raiseFault .memOutOfRange s

end Sys2Proof.Machine
end

