-- ==== Sys2Proof/Machine/Keypad.lean ====
section
/-! DEFINITION. The meanings of the keypad instructions (44_keypad.md). -/

namespace Sys2Proof.Machine

/-- `key[k]`; `none` for an index above 15 (44_keypad.md R170). -/
def State.keyFlag (s : State) (k : Nat) : Option Bool := s.key[k]?

/-- EX9E, SKP VX (R170). -/
def execSkp (x : Nibble) (s : State) : Host.Outcome State Fault Refusal :=
  match s.keyFlag (s.reg x).toNat with
  | none => raiseFault .keyIndexOutOfRange s
  | some pressed => .next (s.advance.skipIf pressed)

/-- EXA1, SKNP VX (R171). -/
def execSknp (x : Nibble) (s : State) : Host.Outcome State Fault Refusal :=
  match s.keyFlag (s.reg x).toNat with
  | none => raiseFault .keyIndexOutOfRange s
  | some pressed => .next (s.advance.skipIf (!pressed))

/-- FX0A, LD VX, K: enter the key wait, or nothing, by `FX0A_MODE` (R172, R175). KeyDown ends the wait
(`keyDown`, HostOps.lean). -/
def execLdK (x : Nibble) (s : State) : Host.Outcome State Fault Refusal :=
  match s.cfg.fx0aMode with
  | .wait => .next { s.advance with wait := some x }
  | .noop => .next s.advance

end Sys2Proof.Machine
end

