-- ==== Sys2Proof/Machine/RegisterAlu.lean ====
section
/-! DEFINITION. The meanings of the register, ALU and index instructions (42_register_alu.md). Operands are read
before any write (R120). -/

namespace Sys2Proof.Machine

/-- 6XNN, LD VX, NN (R121). -/
def execLdImm (x : Nibble) (nn : Byte) (s : State) : Host.Outcome State Fault Refusal :=
  .next (s.advance.setReg x nn)

/-- 7XNN, ADD VX, NN (R122): modulo 256, no flag. -/
def execAddImm (x : Nibble) (nn : Byte) (s : State) : Host.Outcome State Fault Refusal :=
  .next (s.advance.setReg x (s.reg x + nn))

/-- 8XY0, LD VX, VY (R123). -/
def execLdReg (x y : Nibble) (s : State) : Host.Outcome State Fault Refusal :=
  .next (s.advance.setReg x (s.reg y))

/-- 8XY1, OR VX, VY (R124). -/
def execOr (x y : Nibble) (s : State) : Host.Outcome State Fault Refusal :=
  .next (s.advance.setReg x (s.reg x ||| s.reg y))

/-- 8XY2, AND VX, VY (R125). -/
def execAnd (x y : Nibble) (s : State) : Host.Outcome State Fault Refusal :=
  .next (s.advance.setReg x (s.reg x &&& s.reg y))

/-- 8XY3, XOR VX, VY (R126). -/
def execXor (x y : Nibble) (s : State) : Host.Outcome State Fault Refusal :=
  .next (s.advance.setReg x (s.reg x ^^^ s.reg y))

/-- 8XY4, ADD VX, VY (R127). -/
def execAddReg (x y : Nibble) (s : State) : Host.Outcome State Fault Refusal :=
  .next (s.advance.writeFR x (carryFlag (s.reg x) (s.reg y)) (s.reg x + s.reg y))

/-- 8XY5, SUB VX, VY (R128). -/
def execSub (x y : Nibble) (s : State) : Host.Outcome State Fault Refusal :=
  .next (s.advance.writeFR x (noBorrowFlag (s.reg x) (s.reg y)) (s.reg x - s.reg y))

/-- 8XY6, SHR VX (R129): Y is a don't-care field (30_encoding.md R74). -/
def execShr (x : Nibble) (s : State) : Host.Outcome State Fault Refusal :=
  .next (s.advance.writeFR x (shrFlag (s.reg x)) (s.reg x >>> 1))

/-- 8XY7, SUBN VX, VY (R130). -/
def execSubn (x y : Nibble) (s : State) : Host.Outcome State Fault Refusal :=
  .next (s.advance.writeFR x (noBorrowFlag (s.reg y) (s.reg x)) (s.reg y - s.reg x))

/-- 8XY8 or 8XYE, SHL VX (R131): Y is a don't-care field (30_encoding.md R74). -/
def execShl (x : Nibble) (s : State) : Host.Outcome State Fault Refusal :=
  .next (s.advance.writeFR x (shlFlag (s.reg x)) (s.reg x <<< 1))

/-- ANNN, LD I, NNN (R132): no bound is checked. -/
def execLdI (nnn : Addr) (s : State) : Host.Outcome State Fault Refusal :=
  .next { s.advance with i := zext16 nnn }

/-- CXNN, RND VX, NN (R133): one draw of the oracle for each execution. -/
def execRnd (x : Nibble) (nn : Byte) (s : State) : Host.Outcome State Fault Refusal :=
  let r := s.advance.random
  .next (r.2.setReg x (r.1 &&& nn))

end Sys2Proof.Machine
end

