-- ==== Sys2Proof/Machine/Cycle.lean ====
section
/-! DEFINITION. The Cycle operation: gate, fetch, decode, execute (40_cycle.md), and its trace event. -/

namespace Sys2Proof.Machine

/-- A Cycle runs only in RUNNING with no key wait pending (40_cycle.md R90). -/
def State.cycleEnabled (s : State) : Bool := decide (s.state = .running) && s.wait.isNone

/-- Execute the fetched word: its instruction, or nothing beyond the pre-advance for an unrecognized opcode
(30_encoding.md R76; 40_cycle.md R93, R94). -/
def execWord (w : Word) (s : State) : Host.Outcome State Fault Refusal :=
  match decodeWord s.cfg w with
  | .ok i => exec i s
  | .error _ => .next s.advance

/-- `Cycle` (40_cycle.md R97). -/
def cycle (s : State) : Host.Outcome State Fault Refusal :=
  if s.cycleEnabled then
    match s.fetch with
    | none => raiseFault .pcOutOfRange s
    | some w => execWord w s
  else .next s

/-- A trace event: the fetch address and the instruction word (60_exceptions.md R228). -/
structure TraceEvent where
  /-- `pc0` -/
  pc0  : Word
  /-- `w` -/
  word : Word
deriving DecidableEq, Repr

/-- The event a Cycle at this state emits to an attached observer: one for a cycle that completes, none for a gated or
a faulting one (60_exceptions.md R228; 40_cycle.md R97). It changes no state (log entry 13). -/
def cycleTrace (s : State) : Option TraceEvent :=
  if s.cycleEnabled then
    match s.fetch with
    | none => none
    | some w =>
      match execWord w s with
      | .next t => if t.state = .running then some { pc0 := s.pc, word := w } else none
      | .fault _ => none
      | .refused _ => none
  else none

end Sys2Proof.Machine
end

