-- ==== Sys2Proof/Machine/HostOps.lean ====
section
/-! DEFINITION. The host operations (10_state.md R41) and the outputs the host reads (R42). -/

namespace Sys2Proof.Machine

/-- The program does not fit: `len > MEM_SIZE - ENTRY` (70_reset_and_hazards.md R241, R243). -/
def romTooLarge (c : Config) (rom : List Byte) : Bool := decide (memSize - c.entry < rom.length)

/-- Memory after a Load: the font at `FONT_BASE`, then the program at `ENTRY` (70_reset_and_hazards.md R241). -/
def loadMemory (s : State) (rom : List Byte) : Memory :=
  Memory.writeBytes (Memory.writeBytes s.memory fontBase s.cfg.font.toList) s.cfg.entry rom

/-- `Load(rom)` (70_reset_and_hazards.md R241 to R243), in any controller state (log entries 19 and 25). -/
def load (rom : List Byte) (s : State) : State :=
  if romTooLarge s.cfg rom then { s with loadResult := some .romTooLarge }
  else
    { s with
      memory := loadMemory s rom
      pc     := BitVec.ofNat 16 s.cfg.entry
      stack  := []
      state  := .running
      wait   := none
      fault  := none
      loadResult := some .loaded }

/-- A countdown value after one Tick: floored at 0 (60_exceptions.md R220, R222). -/
def countDown (t : Byte) : Byte := if t = 0#8 then 0#8 else t - 1#8

/-- `Tick` (60_exceptions.md R220): only in RUNNING, a key wait included. -/
def tick (s : State) : State :=
  if s.state = .running then { s with dt := countDown s.dt, st := countDown s.st } else s

/-- Key events are taken in RUNNING and in PAUSED (60_exceptions.md R232, R234). -/
def State.takesKeys (s : State) : Bool := decide (s.state = .running) || decide (s.state = .paused)

/-- The end of a pending key wait: `V[x] <- k; wait <- none` (44_keypad.md R173). -/
def State.endWait (s : State) (k : Nat) : State :=
  match s.wait with
  | none => s
  | some x => { s.setReg x (BitVec.ofNat 8 k) with wait := none }

/-- `KeyDown(k)`, k in 0..15 (60_exceptions.md R234; 44_keypad.md R173, R174): in RUNNING it also ends a key wait. -/
def keyDown (k : Nat) (s : State) : State :=
  if s.takesKeys then
    let t := { s with key := s.key.setIfInBounds k true }
    if s.state = .running then t.endWait k else t
  else s

/-- `KeyUp(k)`, k in 0..15 (60_exceptions.md R234). -/
def keyUp (k : Nat) (s : State) : State :=
  if s.takesKeys then { s with key := s.key.setIfInBounds k false } else s

/-- `TogglePause` (60_exceptions.md R231): no effect in HALTED, nor before the first Load. -/
def togglePause (s : State) : State :=
  match s.state with
  | .running => { s with state := .paused }
  | .paused => { s with state := .running }
  | .halted => s
  | .noMachine => s

/-- `Quit`, in any state (60_exceptions.md R230; log entry 5). -/
def quit (s : State) : State := { s with state := .halted }

/-- One host operation, one atomic step (10_state.md R40, R41). A key index outside 0..15 is refused
(60_exceptions.md R234). -/
def hostOp (op : HostOp) (s : State) : Host.Outcome State Fault Refusal :=
  match op with
  | .load rom => .next (load rom s)
  | .cycle => cycle s
  | .tick => .next (tick s)
  | .keyDown k => if k < 16 then .next (keyDown k s) else .refused .keyIndexRefused
  | .keyUp k => if k < 16 then .next (keyUp k s) else .refused .keyIndexRefused
  | .togglePause => .next (togglePause s)
  | .quit => .next (quit s)

/-- The next operation the host issues, and the state without it; with none listed it is Cycle (log entry 6). -/
def nextOp (s : State) : HostOp × State :=
  match s.inputs with
  | [] => (.cycle, s)
  | op :: rest => (op, { s with inputs := rest })

/-- The host's next operation applied to the machine; an illegal configuration has no meaning (00_scope.md R7). -/
def hostStep (s : State) : Host.Outcome State Fault Refusal :=
  if s.cfg.legal then hostOp (nextOp s).1 (nextOp s).2 else .refused .illegalConfiguration

/-- The tone output (10_state.md R42; 60_exceptions.md R221). The other outputs are the state's own `fb` (by
`State.pixel`), `state`, `fault`, `dt`, `st` and `loadResult`, and `cycleTrace`. -/
def State.tone (s : State) : Bool := decide (0 < s.st.toNat)

/-- `s` with one instruction word stored where the next fetch reads it, and what that takes for the next step to run
it (log entry 15): a Cycle is next and passes its gate, PC is in range, the configuration is legal and recognizes the
word where spec/opcode_table.json does (log entry 16). -/
def placeWord (s : State) (w : Word) : State :=
  let pc : Word := if memSize ≤ s.pc.toNat + 1 then 0x200#16 else s.pc
  let b := bytesOfWord w
  { s with
    memory := Memory.writeBytes s.memory pc.toNat [b.1, b.2]
    pc     := pc
    state  := .running
    wait   := none
    inputs := []
    cfg    := enabling (if s.cfg.legal then s.cfg else Config.default) w }

end Sys2Proof.Machine
end

