-- ==== Sys2Proof/Machine/Step.lean ====
section
/-! DEFINITION. The machine's one step, and the placing of an instruction where it is fetched next. -/

namespace Sys2Proof.Machine

/-- One step: the host's next operation, Cycle where none is listed (10_state.md R40, R41; log entry 6). -/
def step : State → Host.Outcome State Fault Refusal := hostStep

/-- The state in which the next step fetches and runs the table's word `w` (log entry 15). -/
def State.withFetchWord (s : State) (nbits w : Nat) : State := placeWord s (tableWord nbits w)

end Sys2Proof.Machine
end

