-- ==== Sys2Proof/Safety.lean ====
section
/-! DEFINITION. What a legal state and a safe run are, and the terms the statements use. -/

namespace Sys2Proof.Machine

/-- The invariant of every state a run reaches. -/
structure State.Inv (s : State) : Prop where
  /-- the parameters are in their ranges (00_scope.md R7) -/
  cfg     : s.cfg.legal = true
  /-- memory has its canonical form, within the address space (20_memory.md R50) -/
  memory  : Memory.wf s.memory
  /-- the framebuffer has its canonical form, within the screen (10_state.md R28) -/
  fb      : Framebuffer.wf s.fb (s.cfg.dispW * s.cfg.dispH)
  /-- "cursor never exceeds capacity" (10_state.md R25) -/
  stack   : s.sp ≤ s.cfg.stackDepth
  /-- a recorded fault has halted the machine (60_exceptions.md R203, R232) -/
  fault   : s.fault ≠ none → s.state = .halted
  /-- with `FX0A_MODE = NOOP`, `wait` is always none (10_state.md R31; 44_keypad.md R175) -/
  noWait  : s.cfg.fx0aMode = .noop → s.wait = none
  /-- before the first Load there is no key wait (10_state.md R37) -/
  machine : s.state = .noMachine → s.wait = none

/-- What holds besides in the base instruction set, `CANONICAL_FX` false: I is a 12-bit value, and both timers stay 0
(42_register_alu.md R135; 60_exceptions.md R222; 92_eei_decisions.md D33). -/
structure State.BaseInv (s : State) : Prop where
  /-- the extension is off -/
  base : s.cfg.canonicalFx = false
  /-- I is at most 0xFFF (42_register_alu.md R135) -/
  i    : s.i.toNat ≤ 0xFFF
  /-- DT is 0 -/
  dt   : s.dt = 0#8
  /-- ST is 0 (60_exceptions.md R222) -/
  st   : s.st = 0#8

/-- A safe state: no fault recorded (10_state.md R32). -/
def State.Safe (s : State) : Prop := s.fault = none

/-- The state after a fault taken at `s`: as `s` but for `fault` and `state` (60_exceptions.md R203, R204). -/
def State.faulted (s : State) (code : FaultCode) : State := { s with fault := some code, state := .halted }

/-- The two bytes at PC, in memory order, decode to instruction `i` (40_cycle.md R91, R93). -/
def State.FetchesInstr (s : State) (i : Instr) : Prop :=
  s.pc.toNat + 1 < memSize ∧
    decode s.cfg [Memory.read s.memory s.pc.toNat, Memory.read s.memory (s.pc.toNat + 1)] = .ok (i, [])

/-- The word of this value is instruction `i`, under every configuration whose instruction set `i` belongs to
(30_encoding.md R72): the encoding line of the instruction's rule. -/
def WordIs (word : Nat) (i : Instr) : Prop :=
  ∀ c : Config, i.wellFormed c = true → decodeWord c (BitVec.ofNat 16 word) = .ok i

/-- The frame of an instruction at `s` that completes in `t` and changes only V, leaving PC at the next instruction:
every other element, each byte of memory included, is that of `s`. -/
def State.OnlyRegisters (s t : State) : Prop := t = { s with pc := s.pc + 2#16, v := t.v }

/-- Every V register outside `xs` reads in `t` as in `s`. -/
def State.RegsKeptBut (s t : State) (xs : List Nibble) : Prop := ∀ r, r ∉ xs → t.reg r = s.reg r

/-- The instruction at `s` completes in `t`, writes VX and changes nothing else but PC; what it writes is said beside. -/
def State.WritesOnly (s t : State) (x : Nibble) : Prop := s.OnlyRegisters t ∧ s.RegsKeptBut t [x]

/-- The instruction at `s` completes in `t` and writes `res` to VX and `flag` to VF, and nothing else but PC; where X
is F, VF holds the one that `VF_ORDER` writes last (42_register_alu.md R120). -/
def State.WritesResultAndFlag (s t : State) (x : Nibble) (res flag : Nat) : Prop :=
  s.OnlyRegisters t ∧ s.RegsKeptBut t [x, vF] ∧
    (x ≠ vF → (t.reg x).toNat = res ∧ (t.reg vF).toNat = flag) ∧
    (x = vF → (t.reg vF).toNat = match s.cfg.vfOrder with
      | .flagThenResult => res
      | .resultThenFlag => flag)

/-- The sprite's row drawn on screen row `cy` (43_display.md R151): its number, where it is one of the `n` rows. -/
def spriteRow (s : State) (y n : Nibble) (cy : Nat) : Option Nat :=
  let oy := (s.reg y).toNat % s.cfg.dispH
  if oy ≤ cy ∧ cy < oy + n.toNat then some (cy - oy) else none

/-- Sprite column `col` is drawn on screen column `cx` (43_display.md R151, R154). -/
def columnFallsOn (s : State) (x : Nibble) (col cx : Nat) : Bool :=
  let ox := (s.reg x).toNat % s.cfg.dispW
  match s.cfg.hEdge with
  | .wrap => (ox + col) % s.cfg.dispW == cx
  | .clip => ox + col == cx

/-- How many sprite bits 1 the draw DXYN at `s` XORs into cell (cx, cy): at most one where the screen is at least 8
wide or clips (43_display.md R151, R154). -/
def spriteHits (s : State) (x y n : Nibble) (cx cy : Nat) : Nat :=
  match spriteRow s y n cy with
  | none => 0
  | some row =>
    ((List.range 8).filter fun col =>
      columnFallsOn s x col cx && (Memory.read s.memory (s.i.toNat + row)).getLsbD (7 - col)).length

/-- The sprite column that falls on screen column `cx`, found by going back from the cell to the origin; 8 or more where
none does. It is the only one where the screen is at least 8 wide or clips (43_display.md R151, R154). -/
def spriteColumn (s : State) (x : Nibble) (cx : Nat) : Nat :=
  let ox := (s.reg x).toNat % s.cfg.dispW
  match s.cfg.hEdge with
  | .wrap => (cx + s.cfg.dispW - ox) % s.cfg.dispW
  | .clip => if ox ≤ cx then cx - ox else 8

/-- The sprite bit of the draw DXYN at `s` that falls on cell (cx, cy), false where none does (43_display.md R151). -/
def spriteBitAt (s : State) (x y n : Nibble) (cx cy : Nat) : Bool :=
  match spriteRow s y n cy with
  | none => false
  | some row =>
    decide (spriteColumn s x cx < 8) &&
      (Memory.read s.memory (s.i.toNat + row)).getLsbD (7 - spriteColumn s x cx)

/-- A cell of the screen collides in the draw: it is hit while lit, either lit from before or lit by an earlier hit of
the same draw (43_display.md R153, R154). -/
def cellCollides (s : State) (x y n : Nibble) (cx cy : Nat) : Prop :=
  1 ≤ spriteHits s x y n cx cy ∧ 2 ≤ spriteHits s x y n cx cy + (if s.pixel cx cy then 1 else 0)

end Sys2Proof.Machine
end

