-- ==== Sys2Proof/Certificates/Slice0/Obligations.lean ====
section
/-! DEFINITION. The statements, by file of spec/. In a statement about an instruction, `{ s with … }` names every
element that may change: all others, every byte of memory among them, are those of `s`. `WordIs` gives the
instruction's encoding. -/

open Sys2Proof Sys2Proof.Machine

/-! ### Encoding (30_encoding.md) -/

/-- Every well-formed instruction, with every operand, under every configuration, is what its word and its bytes decode
to, whatever bytes follow. -/
def Obligations.DecodeOfEncode : Prop :=
  ∀ (c : Config) (i : Instr), i.wellFormed c = true →
    decodeWord c (encode c i) = .ok i ∧ ∀ rest, decode c (encodeBytes c i ++ rest) = .ok (i, rest)

/-- Every word that decodes to an instruction is that instruction's word, and the instruction belongs to the
configuration's instruction set (R72). That no two words share an instruction is the model's choice (log entry 23,
DESIGN CHOICE): for 8XY6 and the shift left every Y selects the same instruction (R74), and the model's constructors
carry the Y that their meanings ignore. -/
def Obligations.EncodeOfDecode : Prop :=
  ∀ (c : Config) (w : Word) (i : Instr), decodeWord c w = .ok i → encode c i = w ∧ i.wellFormed c = true

/-- The unrecognized words are exactly those R77 lists, in plain arithmetic on the word. -/
def Obligations.UnrecognizedWordsExactly : Prop :=
  ∀ (c : Config) (w : Word),
    (∃ e, decodeWord c w = .error e) ↔
      (w.toNat < 0x1000 ∧ w.toNat ≠ 0x00E0 ∧ w.toNat ≠ 0x00EE) ∨
      (w.toNat / 4096 = 0x5 ∧ w.toNat % 16 ≠ 0) ∨
      (w.toNat / 4096 = 0x8 ∧ 0x8 ≤ w.toNat % 16 ∧ w.toNat % 16 ≠ (match c.shlSel with
        | .low8 => 0x8
        | .lowE => 0xE)) ∨
      (w.toNat / 4096 = 0x9 ∧ w.toNat % 16 ≠ 0) ∨
      (w.toNat / 4096 = 0xE ∧ w.toNat % 256 ∉ [0x9E, 0xA1]) ∨
      (w.toNat / 4096 = 0xF ∧ w.toNat % 256 ≠ 0x0A ∧
        (c.canonicalFx = true → w.toNat % 256 ∉ [0x07, 0x15, 0x18, 0x1E, 0x29, 0x33, 0x55, 0x65]))

/-- Words written out from the spec's encodings decode to the instructions they stand for, one of each family. -/
def Obligations.WrittenOutWordsDecode : Prop :=
  decodeWord .default 0x00EE#16 = .ok .ret ∧
  decodeWord .default 0x2300#16 = .ok (.call 0x300) ∧
  decodeWord .default 0x6A5C#16 = .ok (.ldImm 0xA 0x5C) ∧
  decodeWord .default 0x8475#16 = .ok (.sub 0x4 0x7) ∧
  decodeWord .default 0x8228#16 = .ok (.shl 0x2 0x2) ∧
  decodeWord { Config.default with shlSel := .lowE } 0x822E#16 = .ok (.shl 0x2 0x2) ∧
  decodeWord .default 0xD675#16 = .ok (.drw 0x6 0x7 0x5) ∧
  decodeWord .default 0xE5A1#16 = .ok (.sknp 0x5) ∧
  decodeWord { Config.default with canonicalFx := true } 0xF265#16 = .ok (.ldLoad 0x2)

/-! ### The cycle (40_cycle.md) -/

/-- A step at a state about to run the instruction at PC is `exec` of that instruction at that state (R93, R94): first
where the host's list is empty, then where a Cycle heads it. `exec` makes the pre-advance of R92 itself. -/
def Obligations.StepRunsDecodedInstruction : Prop :=
  ∀ (s : State) (i : Instr), s.FetchesInstr i → s.cfg.legal = true → s.state = .running → s.wait = none →
    (s.inputs = [] → step s = exec i s) ∧
    (∀ rest, s.inputs = .cycle :: rest → step s = exec i { s with inputs := rest })

/-- An unrecognized opcode is a no-op: the fetch and the pre-advance, and nothing else. -/
def Obligations.UnrecognizedOpcodeIsNoOp : Prop :=
  ∀ (s : State) (e : Rejection), s.cycleEnabled = true → s.pc.toNat + 1 < 4096 →
    decode s.cfg [Memory.read s.memory s.pc.toNat, Memory.read s.memory (s.pc.toNat + 1)] = .error e →
    cycle s = .next { s with pc := s.pc + 2#16 }

/-- The fetch: an out-of-range PC faults and nothing else happens; otherwise the word is the two bytes at PC, the high
byte first, and it is executed. -/
def Obligations.FetchIsBigEndianOrFaults : Prop :=
  ∀ (s : State), s.cycleEnabled = true →
    (4096 ≤ s.pc.toNat + 1 → cycle s = .next { s with fault := some .pcOutOfRange, state := .halted }) ∧
    (s.pc.toNat + 1 < 4096 → ∃ w : Word,
      w.toNat = 256 * (Memory.read s.memory s.pc.toNat).toNat + (Memory.read s.memory (s.pc.toNat + 1)).toNat ∧
      cycle s = execWord w s)

/-- A Cycle outside RUNNING, or in a key wait, changes nothing; in RUNNING without a key wait it is one pass. -/
def Obligations.CycleGate : Prop :=
  ∀ (s : State),
    (s.state ≠ .running ∨ s.wait ≠ none → cycle s = .next s) ∧
    (s.state = .running → s.wait = none → cycle s =
      match s.fetch with
      | none => .next (s.faulted .pcOutOfRange)
      | some w => execWord w s)

/-- The step is refused exactly for a configuration outside the legal ranges, and then by that name (00_scope.md R7). -/
def Obligations.IllegalConfigurationRefused : Prop :=
  ∀ (s : State), step s = .refused .illegalConfiguration ↔
    ¬ (12 ≤ s.cfg.stackDepth ∧ s.cfg.stackDepth ≤ 16 ∧ 80 ≤ s.cfg.entry ∧ s.cfg.entry ≤ 4096 ∧
      1 ≤ s.cfg.dispW ∧ 1 ≤ s.cfg.dispH)

/-- The model's list of host operations (log entry 6, DESIGN CHOICE): a step applies the first one; with none it is a
Cycle. -/
def Obligations.StepTakesListedOperation : Prop :=
  ∀ (s : State), s.cfg.legal = true →
    (s.inputs = [] → step s = hostOp .cycle s) ∧
    (∀ op rest, s.inputs = op :: rest → step s = hostOp op { s with inputs := rest })

/-- The model's placing of an instruction (log entries 15 and 16, DESIGN CHOICE): the very next step runs it. -/
def Obligations.PlacedWordRuns : Prop :=
  ∀ (s : State) (nbits w : Nat) (i : Instr), decodeTableWord nbits w = some i →
    step (s.withFetchWord nbits w) = exec i (s.withFetchWord nbits w)

/-! ### Whole-machine rules -/

/-- Every step keeps the invariant. -/
def Obligations.StepKeepsInvariant : Prop :=
  ∀ (s t : State), s.Inv → step s = .next t → t.Inv

/-- The state after reset meets both invariants. -/
def Obligations.ResetMeetsInvariant : Prop := State.reset.Inv ∧ State.reset.BaseInv

/-- In the base instruction set I stays a 12-bit value and both timers stay 0, whatever the host does. -/
def Obligations.StepKeepsBaseInvariant : Prop :=
  ∀ (s t : State), s.BaseInv → step s = .next t → t.BaseInv

/-- In the base instruction set only Load writes memory. -/
def Obligations.OnlyLoadWritesMemoryInBaseSet : Prop :=
  ∀ (s t : State), s.cfg.canonicalFx = false → step s = .next t → (∀ rom, (nextOp s).1 ≠ .load rom) →
    ∀ a, Memory.read t.memory a = Memory.read s.memory a

/-- The parameters are fixed for the whole run (log entry 1). -/
def Obligations.StepKeepsConfiguration : Prop :=
  ∀ (s t : State), step s = .next t → t.cfg = s.cfg

/-- Every instruction completes in a next state, from every state, and none of them writes the keypad, the parameters,
the load result or the host's list, nor leaves HALTED or changes between RUNNING and PAUSED. -/
def Obligations.InstructionsNeverStop : Prop :=
  ∀ (i : Instr) (s : State), ∃ t, exec i s = .next t ∧ t.key = s.key ∧ t.cfg = s.cfg ∧
    t.loadResult = s.loadResult ∧ t.inputs = s.inputs ∧ (t.state = s.state ∨ t.state = .halted)

/-- Faults are precise: the state after a faulting cycle is the state before it but for `fault` and `state`. -/
def Obligations.FaultsArePrecise : Prop :=
  ∀ (s t : State) (code : FaultCode), s.fault = none → cycle s = .next t → t.fault = some code →
    t = { s with fault := some code, state := .halted }

/-- A cycle raises each fault exactly on the table's condition, with the table's code, and no other host operation
raises one. -/
def Obligations.FaultsExactlyAsListed : Prop :=
  (FaultCode.stackOverflow.code = 1 ∧ FaultCode.stackUnderflow.code = 2 ∧ FaultCode.pcOutOfRange.code = 3 ∧
    FaultCode.memOutOfRange.code = 4 ∧ FaultCode.keyIndexOutOfRange.code = 5) ∧
  (∀ (s t : State), s.cycleEnabled = true → s.fault = none → s.sp ≤ s.cfg.stackDepth → cycle s = .next t →
    (t.fault = some .stackOverflow ↔ (∃ nnn, s.FetchesInstr (.call nnn)) ∧ s.sp = s.cfg.stackDepth) ∧
    (t.fault = some .stackUnderflow ↔ s.FetchesInstr .ret ∧ s.sp = 0) ∧
    (t.fault = some .pcOutOfRange ↔ 4096 ≤ s.pc.toNat + 1) ∧
    (t.fault = some .memOutOfRange ↔
      (∃ x y n, s.FetchesInstr (.drw x y n) ∧ 1 ≤ n.toNat ∧ 4096 ≤ s.i.toNat + n.toNat - 1) ∨
      (∃ x, s.FetchesInstr (.ldB x) ∧ 4096 ≤ s.i.toNat + 2) ∨
      (∃ x, (s.FetchesInstr (.ldStore x) ∨ s.FetchesInstr (.ldLoad x)) ∧ 4096 ≤ s.i.toNat + x.toNat)) ∧
    (t.fault = some .keyIndexOutOfRange ↔
      ∃ x, (s.FetchesInstr (.skp x) ∨ s.FetchesInstr (.sknp x)) ∧ 15 < (s.reg x).toNat)) ∧
  ∀ (op : HostOp) (s t : State), op ≠ .cycle ∨ s.cycleEnabled = false → hostOp op s = .next t →
    t.fault = s.fault ∨ t.fault = none

/-! ### Control flow (41_control_flow.md) -/

/-- 1NNN. -/
def Obligations.JumpSetsPc : Prop :=
  ∀ (nnn : Addr) (s : State), WordIs (0x1000 + nnn.toNat) (.jp nnn) ∧
    exec (.jp nnn) s = .next { s with pc := BitVec.ofNat 16 nnn.toNat }

/-- 2NNN with room pushes the address after it and jumps; with a full stack it faults. -/
def Obligations.CallPushesReturnAddress : Prop :=
  ∀ (nnn : Addr) (s : State), WordIs (0x2000 + nnn.toNat) (.call nnn) ∧
    (s.sp < s.cfg.stackDepth → ∃ t, exec (.call nnn) s = .next t ∧
      t = { s with pc := BitVec.ofNat 16 nnn.toNat, stack := t.stack } ∧
      t.sp = s.sp + 1 ∧ t.stackEntry s.sp = some (s.pc + 2#16) ∧ ∀ k, k < s.sp → t.stackEntry k = s.stackEntry k) ∧
    (s.sp = s.cfg.stackDepth →
      exec (.call nnn) s = .next { s with fault := some .stackOverflow, state := .halted })

/-- 00EE pops the most recent entry into PC; with an empty stack it faults. -/
def Obligations.ReturnPopsReturnAddress : Prop :=
  ∀ (s : State), WordIs 0x00EE .ret ∧
    (∀ n a, s.sp = n + 1 → s.stackEntry n = some a → ∃ t, exec .ret s = .next t ∧
      t = { s with pc := a, stack := t.stack } ∧ t.sp = n ∧ ∀ k, k < n → t.stackEntry k = s.stackEntry k) ∧
    (s.sp = 0 → exec .ret s = .next { s with fault := some .stackUnderflow, state := .halted })

/-- A call and the return that follows it leave the machine after the call, with nothing else changed. -/
def Obligations.CallThenReturnRestores : Prop :=
  ∀ (nnn : Addr) (s : State), s.sp < s.cfg.stackDepth →
    ∃ t, exec (.call nnn) s = .next t ∧ exec .ret t = .next { s with pc := s.pc + 2#16 }

/-- 3XNN and 4XNN. -/
def Obligations.SkipOnImmediate : Prop :=
  ∀ (x : Nibble) (nn : Byte) (s : State),
    WordIs (0x3000 + 256 * x.toNat + nn.toNat) (.seImm x nn) ∧
    WordIs (0x4000 + 256 * x.toNat + nn.toNat) (.sneImm x nn) ∧
    exec (.seImm x nn) s =
      .next { s with pc := if (s.reg x).toNat = nn.toNat then s.pc + 4#16 else s.pc + 2#16 } ∧
    exec (.sneImm x nn) s =
      .next { s with pc := if (s.reg x).toNat = nn.toNat then s.pc + 2#16 else s.pc + 4#16 }

/-- 5XY0 and 9XY0; with X = Y the first always skips and the second never. -/
def Obligations.SkipOnRegisters : Prop :=
  ∀ (x y : Nibble) (s : State),
    WordIs (0x5000 + 256 * x.toNat + 16 * y.toNat) (.seReg x y) ∧
    WordIs (0x9000 + 256 * x.toNat + 16 * y.toNat) (.sneReg x y) ∧
    exec (.seReg x y) s =
      .next { s with pc := if (s.reg x).toNat = (s.reg y).toNat then s.pc + 4#16 else s.pc + 2#16 } ∧
    exec (.sneReg x y) s =
      .next { s with pc := if (s.reg x).toNat = (s.reg y).toNat then s.pc + 2#16 else s.pc + 4#16 } ∧
    exec (.seReg x x) s = .next { s with pc := s.pc + 4#16 } ∧
    exec (.sneReg x x) s = .next { s with pc := s.pc + 2#16 }

/-- BNNN: the sum V0 + NNN, not reduced to 12 bits. -/
def Obligations.ComputedJumpIsNotWrapped : Prop :=
  ∀ (nnn : Addr) (s : State), WordIs (0xB000 + nnn.toNat) (.jpV0 nnn) ∧
    ∃ t, exec (.jpV0 nnn) s = .next t ∧ t = { s with pc := t.pc } ∧
    t.pc.toNat = (s.reg 0#4).toNat + nnn.toNat

/-! ### Registers and arithmetic (42_register_alu.md) -/

/-- 6XNN, 8XY0, 8XY1, 8XY2, 8XY3: VX gets the value, bit by bit for the logic, and nothing else but PC changes (VF only
where X is F). -/
def Obligations.LoadsAndLogic : Prop :=
  ∀ (x y : Nibble) (nn : Byte) (s : State),
    (WordIs (0x6000 + 256 * x.toNat + nn.toNat) (.ldImm x nn) ∧
      WordIs (0x8000 + 256 * x.toNat + 16 * y.toNat) (.ldReg x y) ∧
      WordIs (0x8001 + 256 * x.toNat + 16 * y.toNat) (.orReg x y) ∧
      WordIs (0x8002 + 256 * x.toNat + 16 * y.toNat) (.andReg x y) ∧
      WordIs (0x8003 + 256 * x.toNat + 16 * y.toNat) (.xorReg x y)) ∧
    (∃ t, exec (.ldImm x nn) s = .next t ∧ s.WritesOnly t x ∧ t.reg x = nn) ∧
    (∃ t, exec (.ldReg x y) s = .next t ∧ s.WritesOnly t x ∧ t.reg x = s.reg y) ∧
    (∃ t, exec (.orReg x y) s = .next t ∧ s.WritesOnly t x ∧
      ∀ k, (t.reg x).getLsbD k = ((s.reg x).getLsbD k || (s.reg y).getLsbD k)) ∧
    (∃ t, exec (.andReg x y) s = .next t ∧ s.WritesOnly t x ∧
      ∀ k, (t.reg x).getLsbD k = ((s.reg x).getLsbD k && (s.reg y).getLsbD k)) ∧
    (∃ t, exec (.xorReg x y) s = .next t ∧ s.WritesOnly t x ∧
      ∀ k, (t.reg x).getLsbD k = xor ((s.reg x).getLsbD k) ((s.reg y).getLsbD k))

/-- 7XNN: the sum modulo 256, and no flag. -/
def Obligations.AddImmediateWithoutFlag : Prop :=
  ∀ (x : Nibble) (nn : Byte) (s : State), WordIs (0x7000 + 256 * x.toNat + nn.toNat) (.addImm x nn) ∧
    ∃ t, exec (.addImm x nn) s = .next t ∧ s.WritesOnly t x ∧
    (t.reg x).toNat = ((s.reg x).toNat + nn.toNat) % 256

/-- 8XY4: the sum modulo 256, and the carry, with every aliasing of X, Y and F. -/
def Obligations.AddRegistersWithCarry : Prop :=
  ∀ (x y : Nibble) (s : State), WordIs (0x8004 + 256 * x.toNat + 16 * y.toNat) (.addReg x y) ∧
    ∃ t, exec (.addReg x y) s = .next t ∧
    s.WritesResultAndFlag t x (((s.reg x).toNat + (s.reg y).toNat) % 256)
      (if 255 < (s.reg x).toNat + (s.reg y).toNat then 1 else 0)

/-- 8XY5 and 8XY7: the difference modulo 256, and the no-borrow flag, with every aliasing of X, Y and F. -/
def Obligations.SubtractWithNoBorrow : Prop :=
  ∀ (x y : Nibble) (s : State),
    WordIs (0x8005 + 256 * x.toNat + 16 * y.toNat) (.sub x y) ∧
    WordIs (0x8007 + 256 * x.toNat + 16 * y.toNat) (.subn x y) ∧
    (∃ t, exec (.sub x y) s = .next t ∧
      s.WritesResultAndFlag t x ((256 + (s.reg x).toNat - (s.reg y).toNat) % 256)
        (if (s.reg y).toNat ≤ (s.reg x).toNat then 1 else 0)) ∧
    (∃ t, exec (.subn x y) s = .next t ∧
      s.WritesResultAndFlag t x ((256 + (s.reg y).toNat - (s.reg x).toNat) % 256)
        (if (s.reg x).toNat ≤ (s.reg y).toNat then 1 else 0))

/-- 8XY6 and the shift left, at the word `SHL_SEL` selects: by one place, the bit shifted out to VF, whatever Y is. -/
def Obligations.ShiftsByOne : Prop :=
  ∀ (x y : Nibble) (s : State),
    WordIs (0x8006 + 256 * x.toNat + 16 * y.toNat) (.shr x y) ∧
    (∀ c : Config, decodeWord c (BitVec.ofNat 16 (0x8000 + 256 * x.toNat + 16 * y.toNat +
      match c.shlSel with
      | .low8 => 0x8
      | .lowE => 0xE)) = .ok (.shl x y)) ∧
    (∃ t, exec (.shr x y) s = .next t ∧
      s.WritesResultAndFlag t x ((s.reg x).toNat / 2) ((s.reg x).toNat % 2)) ∧
    (∃ t, exec (.shl x y) s = .next t ∧
      s.WritesResultAndFlag t x (2 * (s.reg x).toNat % 256) ((s.reg x).toNat / 128))

/-- ANNN. -/
def Obligations.LoadIndex : Prop :=
  ∀ (nnn : Addr) (s : State), WordIs (0xA000 + nnn.toNat) (.ldI nnn) ∧
    exec (.ldI nnn) s = .next { s with pc := s.pc + 2#16, i := BitVec.ofNat 16 nnn.toNat }

/-- CXNN: one oracle byte masked with NN, for every byte the oracle may give; no bit outside NN is set. The oracle's
counter `draws` is the model's choice (log entry 11, DESIGN CHOICE). -/
def Obligations.RandomByteMasked : Prop :=
  ∀ (x : Nibble) (nn : Byte) (s : State), WordIs (0xC000 + 256 * x.toNat + nn.toNat) (.rnd x nn) ∧
    ∃ t, exec (.rnd x nn) s = .next t ∧
    t = { s with pc := s.pc + 2#16, v := t.v, draws := s.draws + 1 } ∧ s.RegsKeptBut t [x] ∧
    (∀ k, (t.reg x).getLsbD k = ((Config.randomByte s.draws).getLsbD k && nn.getLsbD k)) ∧
    (∀ k, nn.getLsbD k = false → (t.reg x).getLsbD k = false)

/-! ### Display (43_display.md) -/

/-- 00E0: every cell false. -/
def Obligations.ClearScreen : Prop :=
  ∀ (s : State), WordIs 0x00E0 .cls ∧ ∃ t, exec .cls s = .next t ∧ t = { s with pc := s.pc + 2#16, fb := t.fb } ∧
    ∀ cx cy, t.pixel cx cy = false

/-- DXYN: out of range it faults; in range, each cell of the screen is inverted once for each sprite bit 1 that falls on it, no other cell
changes, and VF is 1 where a cell is hit while lit, else 0. It covers every screen size and both edges. -/
def Obligations.DrawXorsSprite : Prop :=
  ∀ (x y n : Nibble) (s : State), 1 ≤ s.cfg.dispW → 1 ≤ s.cfg.dispH →
    WordIs (0xD000 + 256 * x.toNat + 16 * y.toNat + n.toNat) (.drw x y n) ∧
    (1 ≤ n.toNat ∧ 4096 ≤ s.i.toNat + n.toNat - 1 →
      exec (.drw x y n) s = .next { s with fault := some .memOutOfRange, state := .halted }) ∧
    (n = 0#4 ∨ s.i.toNat + n.toNat - 1 < 4096 →
    ∃ t, exec (.drw x y n) s = .next t ∧ t = { s with pc := s.pc + 2#16, fb := t.fb, v := t.v } ∧
      s.RegsKeptBut t [vF] ∧
      (∀ cx cy, cx < s.cfg.dispW → cy < s.cfg.dispH →
        t.pixel cx cy = xor (spriteHits s x y n cx cy % 2 == 1) (s.pixel cx cy)) ∧
      (∀ k, s.cfg.dispW * s.cfg.dispH ≤ k → Framebuffer.lit t.fb k = Framebuffer.lit s.fb k) ∧
      ((∃ cx cy, cx < s.cfg.dispW ∧ cy < s.cfg.dispH ∧ cellCollides s x y n cx cy) → t.reg vF = 1#8) ∧
      ((¬ ∃ cx cy, cx < s.cfg.dispW ∧ cy < s.cfg.dispH ∧ cellCollides s x y n cx cy) → t.reg vF = 0#8))

/-- DXYN in range on a screen at least 8 wide, or one that clips: each cell after the draw is the cell before XOR the
one sprite bit that falls on it, and VF is 1 where such a bit falls on a lit cell, else 0. -/
def Obligations.DrawXorsOneBitPerCell : Prop :=
  ∀ (x y n : Nibble) (s : State), 8 ≤ s.cfg.dispW ∨ (s.cfg.hEdge = .clip ∧ 1 ≤ s.cfg.dispW) → 1 ≤ s.cfg.dispH →
    n = 0#4 ∨ s.i.toNat + n.toNat - 1 < 4096 →
    ∃ t, exec (.drw x y n) s = .next t ∧ t = { s with pc := s.pc + 2#16, fb := t.fb, v := t.v } ∧
      s.RegsKeptBut t [vF] ∧
      (∀ cx cy, cx < s.cfg.dispW → cy < s.cfg.dispH →
        t.pixel cx cy = xor (s.pixel cx cy) (spriteBitAt s x y n cx cy)) ∧
      ((∃ cx cy, cx < s.cfg.dispW ∧ cy < s.cfg.dispH ∧ spriteBitAt s x y n cx cy = true ∧ s.pixel cx cy = true) →
        t.reg vF = 1#8) ∧
      ((¬ ∃ cx cy, cx < s.cfg.dispW ∧ cy < s.cfg.dispH ∧ spriteBitAt s x y n cx cy = true ∧ s.pixel cx cy = true) →
        t.reg vF = 0#8)

/-- DXYN out of range faults before any effect, clipped rows included, and only with N ≥ 1. -/
def Obligations.DrawRangeIsChecked : Prop :=
  ∀ (x y n : Nibble) (s : State), 1 ≤ n.toNat → 4096 ≤ s.i.toNat + n.toNat - 1 →
    exec (.drw x y n) s = .next { s with fault := some .memOutOfRange, state := .halted }

/-- Drawing a sprite twice at one origin restores the framebuffer exactly. The second draw sets VF exactly where some
cell is hit by two bits or hit by one while it was unlit before the first draw; where no sprite bit falls on the screen,
VF is 0 after both (log entry 21 says how this refines R158). -/
def Obligations.DoubleDrawRestores : Prop :=
  ∀ (x y n : Nibble) (s : State), x ≠ vF → y ≠ vF → 1 ≤ s.cfg.dispW → 1 ≤ s.cfg.dispH →
    Framebuffer.wf s.fb (s.cfg.dispW * s.cfg.dispH) → n = 0#4 ∨ s.i.toNat + n.toNat - 1 < 4096 →
    ∃ t u, exec (.drw x y n) s = .next t ∧ exec (.drw x y n) t = .next u ∧ u.fb = s.fb ∧
      (u.reg vF = 1#8 ↔ ∃ cx cy, cx < s.cfg.dispW ∧ cy < s.cfg.dispH ∧
        (2 ≤ spriteHits s x y n cx cy ∨ (spriteHits s x y n cx cy = 1 ∧ s.pixel cx cy = false))) ∧
      ((∀ cx cy, cx < s.cfg.dispW → cy < s.cfg.dispH → spriteHits s x y n cx cy = 0) →
        t.reg vF = 0#8 ∧ u.reg vF = 0#8)

/-! ### Keypad (44_keypad.md) -/

/-- EX9E and EXA1: an index 0..15 skips by the key's flag, a higher one faults. -/
def Obligations.SkipOnKey : Prop :=
  ∀ (x : Nibble) (s : State),
    WordIs (0xE09E + 256 * x.toNat) (.skp x) ∧ WordIs (0xE0A1 + 256 * x.toNat) (.sknp x) ∧
    (∀ pressed, s.keyFlag (s.reg x).toNat = some pressed →
      exec (.skp x) s = .next { s with pc := if pressed then s.pc + 4#16 else s.pc + 2#16 } ∧
      exec (.sknp x) s = .next { s with pc := if pressed then s.pc + 2#16 else s.pc + 4#16 }) ∧
    ((s.reg x).toNat ≤ 15 → ∃ pressed, s.keyFlag (s.reg x).toNat = some pressed) ∧
    (15 < (s.reg x).toNat →
      exec (.skp x) s = .next { s with fault := some .keyIndexOutOfRange, state := .halted } ∧
      exec (.sknp x) s = .next { s with fault := some .keyIndexOutOfRange, state := .halted })

/-- FX0A enters the key wait in WAIT mode and only advances PC in NOOP mode. -/
def Obligations.KeyWaitBegins : Prop :=
  ∀ (x : Nibble) (s : State), WordIs (0xF00A + 256 * x.toNat) (.ldK x) ∧
    (s.cfg.fx0aMode = .wait → exec (.ldK x) s = .next { s with pc := s.pc + 2#16, wait := some x }) ∧
    (s.cfg.fx0aMode = .noop → exec (.ldK x) s = .next { s with pc := s.pc + 2#16 })

/-- KeyDown in RUNNING with a key wait pending sets the key, stores its index in the waiting register and ends the
wait, held before or not. KeyUp never ends it. -/
def Obligations.KeyDownEndsKeyWait : Prop :=
  ∀ (s : State) (x : Nibble) (k : Nat), k < 16 → s.state = .running → s.wait = some x →
    (∃ t, hostOp (.keyDown k) s = .next t ∧ t = { s with key := t.key, v := t.v, wait := none } ∧
      (∀ j, t.keyFlag j = if j = k then some true else s.keyFlag j) ∧
      (t.reg x).toNat = k ∧ s.RegsKeptBut t [x]) ∧
    (∃ t, hostOp (.keyUp k) s = .next t ∧ t = { s with key := t.key } ∧ t.wait = some x)

/-! ### The extension (46_fx_extension.md) -/

/-- FX07, FX15, FX18. -/
def Obligations.TimerTransfers : Prop :=
  ∀ (x : Nibble) (s : State),
    WordIs (0xF007 + 256 * x.toNat) (.ldVxDt x) ∧ WordIs (0xF015 + 256 * x.toNat) (.ldDt x) ∧
    WordIs (0xF018 + 256 * x.toNat) (.ldSt x) ∧
    (∃ t, exec (.ldVxDt x) s = .next t ∧ s.WritesOnly t x ∧ t.reg x = s.dt) ∧
    exec (.ldDt x) s = .next { s with pc := s.pc + 2#16, dt := s.reg x } ∧
    exec (.ldSt x) s = .next { s with pc := s.pc + 2#16, st := s.reg x }

/-- FX1E adds modulo 2^16 and FX29 gives the glyph's address; neither writes VF. -/
def Obligations.IndexArithmetic : Prop :=
  ∀ (x : Nibble) (s : State),
    WordIs (0xF01E + 256 * x.toNat) (.addI x) ∧ WordIs (0xF029 + 256 * x.toNat) (.ldF x) ∧
    (∃ t, exec (.addI x) s = .next t ∧ t = { s with pc := s.pc + 2#16, i := t.i } ∧
      t.i.toNat = (s.i.toNat + (s.reg x).toNat) % 65536) ∧
    (∃ t, exec (.ldF x) s = .next t ∧ t = { s with pc := s.pc + 2#16, i := t.i } ∧
      t.i.toNat = 5 * ((s.reg x).toNat % 16))

/-- FX33 in range stores the three digits at I, I + 1, I + 2 and no other byte; out of range it faults. -/
def Obligations.StoreDecimalDigits : Prop :=
  ∀ (x : Nibble) (s : State), WordIs (0xF033 + 256 * x.toNat) (.ldB x) ∧
    (s.i.toNat + 2 < 4096 → ∃ t, exec (.ldB x) s = .next t ∧
      t = { s with pc := s.pc + 2#16, memory := t.memory } ∧
      (Memory.read t.memory (s.dataAddress 0)).toNat = (s.reg x).toNat / 100 ∧
      (Memory.read t.memory (s.dataAddress 1)).toNat = (s.reg x).toNat / 10 % 10 ∧
      (Memory.read t.memory (s.dataAddress 2)).toNat = (s.reg x).toNat % 10 ∧
      ∀ a, (∀ j, j < 3 → a ≠ s.dataAddress j) → Memory.read t.memory a = Memory.read s.memory a) ∧
    (4096 ≤ s.i.toNat + 2 →
      exec (.ldB x) s = .next { s with fault := some .memOutOfRange, state := .halted })

/-- FX55 in range stores V0..VX at I..I+X and no other byte, I unchanged; out of range it faults. -/
def Obligations.StoreRegisters : Prop :=
  ∀ (x : Nibble) (s : State), WordIs (0xF055 + 256 * x.toNat) (.ldStore x) ∧
    (s.i.toNat + x.toNat < 4096 → ∃ t, exec (.ldStore x) s = .next t ∧
      t = { s with pc := s.pc + 2#16, memory := t.memory } ∧
      (∀ r : Nibble, r.toNat ≤ x.toNat → Memory.read t.memory (s.dataAddress r.toNat) = s.reg r) ∧
      ∀ a, (∀ j, j ≤ x.toNat → a ≠ s.dataAddress j) → Memory.read t.memory a = Memory.read s.memory a) ∧
    (4096 ≤ s.i.toNat + x.toNat →
      exec (.ldStore x) s = .next { s with fault := some .memOutOfRange, state := .halted })

/-- FX65 in range loads V0..VX from I..I+X and no other register, I unchanged; out of range it faults. -/
def Obligations.LoadRegisters : Prop :=
  ∀ (x : Nibble) (s : State), WordIs (0xF065 + 256 * x.toNat) (.ldLoad x) ∧
    (s.i.toNat + x.toNat < 4096 → ∃ t, exec (.ldLoad x) s = .next t ∧ s.OnlyRegisters t ∧
      (∀ r : Nibble, r.toNat ≤ x.toNat → t.reg r = Memory.read s.memory (s.dataAddress r.toNat)) ∧
      (∀ r : Nibble, x.toNat < r.toNat → t.reg r = s.reg r)) ∧
    (4096 ≤ s.i.toNat + x.toNat →
      exec (.ldLoad x) s = .next { s with fault := some .memOutOfRange, state := .halted })

/-- What FX55 has stored, FX65 with the same X and I brings back, whatever the registers have become in between: V0..VX
read as before the store, and the others as before the load. -/
def Obligations.StoreThenLoadRestoresRegisters : Prop :=
  ∀ (x : Nibble) (s : State) (v2 : Vector Byte 16), s.i.toNat + x.toNat < 4096 →
    ∃ t u, exec (.ldStore x) s = .next t ∧ exec (.ldLoad x) { t with v := v2 } = .next u ∧
      (∀ r : Nibble, r.toNat ≤ x.toNat → u.reg r = s.reg r) ∧
      (∀ r : Nibble, x.toNat < r.toNat → u.reg r = State.reg { t with v := v2 } r)

/-! ### Timers, controller, host operations (60_exceptions.md, 70_reset_and_hazards.md) -/

/-- Tick counts both timers down by one, floored at 0, in RUNNING only. -/
def Obligations.TickCountsDown : Prop :=
  ∀ (s : State),
    (s.state = .running → ∃ t, hostOp .tick s = .next t ∧ t = { s with dt := t.dt, st := t.st } ∧
      t.dt.toNat = s.dt.toNat - 1 ∧ t.st.toNat = s.st.toNat - 1) ∧
    (s.state ≠ .running → hostOp .tick s = .next s)

/-- KeyDown and KeyUp set and clear the flag they name, in RUNNING and PAUSED; elsewhere they do nothing; an index
outside 0..15 is refused. KeyUp changes nothing else, nor does KeyDown in PAUSED (44_keypad.md R174) or where no key wait
is pending. A KeyDown in RUNNING leaves no key wait; what else it writes where one is pending is said by
`KeyDownEndsKeyWait` alone. That the index is refused in HALTED too is log entry 20 (DEDUCED), and that the events have
no effect before the first Load is log entry 4 (DEDUCED): both are the model's. -/
def Obligations.KeyEventsSetFlags : Prop :=
  ∀ (s : State) (k : Nat),
    (k < 16 → s.state = .running ∨ s.state = .paused →
      (∃ t, hostOp (.keyDown k) s = .next t ∧ (∀ j, t.keyFlag j = if j = k then some true else s.keyFlag j) ∧
        (s.state = .paused ∨ s.wait = none → t = { s with key := t.key }) ∧
        (s.state = .running → t.wait = none)) ∧
      (∃ t, hostOp (.keyUp k) s = .next t ∧ t = { s with key := t.key } ∧
        ∀ j, t.keyFlag j = if j = k then some false else s.keyFlag j)) ∧
    (k < 16 → s.state ≠ .running → s.state ≠ .paused →
      hostOp (.keyDown k) s = .next s ∧ hostOp (.keyUp k) s = .next s) ∧
    (16 ≤ k → hostOp (.keyDown k) s = .refused .keyIndexRefused ∧ hostOp (.keyUp k) s = .refused .keyIndexRefused)

/-- TogglePause swaps RUNNING and PAUSED and has no effect in HALTED. That it has none before the first Load either is
the model's choice (log entry 4, DEDUCED). -/
def Obligations.TogglePauseSwaps : Prop :=
  ∀ (s : State),
    (s.state = .running → hostOp .togglePause s = .next { s with state := .paused }) ∧
    (s.state = .paused → hostOp .togglePause s = .next { s with state := .running }) ∧
    (s.state = .halted → hostOp .togglePause s = .next s) ∧
    (s.state = .noMachine → hostOp .togglePause s = .next s)

/-- Quit halts, in any state, and leaves every other element unchanged. That it does so before the first Load too is the
model's choice (log entry 5, DEDUCED). -/
def Obligations.QuitHalts : Prop :=
  ∀ (s : State), hostOp .quit s = .next { s with state := .halted }

/-- HALTED is terminal: no operation but Load has an effect, and only Load builds a running machine again. -/
def Obligations.HaltedIsTerminal : Prop :=
  ∀ (s : State), s.state = .halted →
    hostOp .cycle s = .next s ∧ hostOp .tick s = .next s ∧ hostOp .togglePause s = .next s ∧
    hostOp .quit s = .next s ∧
    (∀ k, k < 16 → hostOp (.keyDown k) s = .next s ∧ hostOp (.keyUp k) s = .next s) ∧
    (∀ op t, hostOp op s = .next t → t.state = .running → ∃ rom, op = .load rom)

/-- A Load that fits writes the font and the program, and no other byte; it sets PC, empties the stack, starts the
machine and clears the wait and the fault; V, I, the timers, the framebuffer and the keypad are kept. A Load that does
not fit reports RomTooLarge and leaves the machine unchanged. The place of the report, `loadResult`, and its value
`loaded` are the model's choice (log entry 12, DESIGN CHOICE). -/
def Obligations.LoadStartsMachineOrReports : Prop :=
  ∀ (s : State) (rom : List Byte), s.cfg.legal = true →
    (rom.length ≤ 4096 - s.cfg.entry →
      ∃ t, hostOp (.load rom) s = .next t ∧
        t = { s with memory := t.memory, pc := t.pc, stack := [], state := .running, wait := none, fault := none,
                     loadResult := some .loaded } ∧
        t.pc.toNat = s.cfg.entry ∧
        (∀ k, (h : k < 80) → Memory.read t.memory k = s.cfg.font[k]) ∧
        (∀ k, (h : k < rom.length) → Memory.read t.memory (s.cfg.entry + k) = rom[k]) ∧
        (∀ a, 80 ≤ a → a < s.cfg.entry ∨ s.cfg.entry + rom.length ≤ a →
          Memory.read t.memory a = Memory.read s.memory a)) ∧
    (4096 - s.cfg.entry < rom.length →
      hostOp (.load rom) s = .next { s with loadResult := some .romTooLarge })

/-- With the defaults a ROM of 3584 bytes loads and fills 0x200..0xFFF, and one byte more fails. -/
def Obligations.LoadBoundary : Prop :=
  ∀ (s : State) (rom : List Byte), s.cfg = Config.default →
    ((h : rom.length = 3584) → ∃ t, hostOp (.load rom) s = .next t ∧ t.loadResult = some .loaded ∧
      ∀ k, (hk : k < 3584) → Memory.read t.memory (0x200 + k) = rom[k]) ∧
    (rom.length = 3585 → hostOp (.load rom) s = .next { s with loadResult := some .romTooLarge })

/-- The power-on state, and that only a Load starts a machine from it. -/
def Obligations.PowerOnValues : Prop :=
  (∀ a, Memory.read State.reset.memory a = 0#8) ∧ (∀ x, State.reset.reg x = 0#8) ∧
  State.reset.i = 0#16 ∧ State.reset.pc = 0#16 ∧ State.reset.sp = 0 ∧
  State.reset.dt = 0#8 ∧ State.reset.st = 0#8 ∧ (∀ cx cy, State.reset.pixel cx cy = false) ∧
  (∀ k, k < 16 → State.reset.keyFlag k = some false) ∧ State.reset.wait = none ∧ State.reset.fault = none ∧
  (∀ op t, hostOp op State.reset = .next t → t.state = .running → ∃ rom, op = .load rom)

/-- The tone is on exactly while ST is above 0. -/
def Obligations.ToneFollowsSoundTimer : Prop :=
  ∀ (s : State), s.tone = true ↔ 0 < s.st.toNat

/-- A completed cycle emits its fetch address and word; a faulting or gated one emits nothing. That a cycle is completed
exactly where it ends without a fault is the model's choice (log entry 13, DESIGN CHOICE). -/
def Obligations.TraceOfCompletedCycles : Prop :=
  ∀ (s : State), s.fault = none →
    (s.cycleEnabled = true → ∃ t, cycle s = .next t ∧
      (t.fault = none → ∃ w, s.fetch = some w ∧ cycleTrace s = some { pc0 := s.pc, word := w }) ∧
      (t.fault ≠ none → cycleTrace s = none)) ∧
    (s.cycleEnabled = false → cycleTrace s = none)
end

