-- ==== Sys2Proof/Laws/Decode.lean ====
section
/-! SUPPORT. The fields of an assembled word, and a word assembled from its fields (30_encoding.md R70, R71). -/

namespace Sys2Proof

/-! Every field in plain arithmetic. -/

theorem wordH_toNat (w : Word) : (wordH w).toNat = w.toNat / 4096 := by
  have := w.isLt
  simp only [wordH, BitVec.extractLsb'_toNat, Nat.shiftRight_eq_div_pow]; omega
theorem wordX_toNat (w : Word) : (wordX w).toNat = w.toNat / 256 % 16 := by
  simp only [wordX, BitVec.extractLsb'_toNat, Nat.shiftRight_eq_div_pow]
theorem wordY_toNat (w : Word) : (wordY w).toNat = w.toNat / 16 % 16 := by
  simp only [wordY, BitVec.extractLsb'_toNat, Nat.shiftRight_eq_div_pow]
theorem wordN_toNat (w : Word) : (wordN w).toNat = w.toNat % 16 := by
  simp only [wordN, BitVec.extractLsb'_toNat, Nat.shiftRight_eq_div_pow]; omega
theorem wordNN_toNat (w : Word) : (wordNN w).toNat = w.toNat % 256 := by
  simp only [wordNN, BitVec.extractLsb'_toNat, Nat.shiftRight_eq_div_pow]; omega
theorem wordNNN_toNat (w : Word) : (wordNNN w).toNat = w.toNat % 4096 := by
  simp only [wordNNN, BitVec.extractLsb'_toNat, Nat.shiftRight_eq_div_pow]; omega

theorem wordNNNOf_toNat (h : Nibble) (nnn : Addr) : (wordNNNOf h nnn).toNat = h.toNat * 4096 + nnn.toNat := by
  have := nnn.isLt
  simp only [wordNNNOf, BitVec.toNat_append]
  rw [Nat.shiftLeft_eq, Nat.mul_comm h.toNat, ← Nat.two_pow_add_eq_or_of_lt this]

theorem wordXNNOf_toNat (h x : Nibble) (nn : Byte) :
    (wordXNNOf h x nn).toNat = h.toNat * 4096 + x.toNat * 256 + nn.toNat := by
  have h1 := nn.isLt
  have h2 := x.isLt
  simp only [wordXNNOf, BitVec.toNat_append]
  rw [Nat.shiftLeft_eq, Nat.shiftLeft_eq, Nat.mul_comm x.toNat, ← Nat.two_pow_add_eq_or_of_lt h1, Nat.mul_comm h.toNat,
    ← Nat.two_pow_add_eq_or_of_lt (by omega)]; omega

theorem wordXYNOf_toNat (h x y n : Nibble) :
    (wordXYNOf h x y n).toNat = h.toNat * 4096 + x.toNat * 256 + y.toNat * 16 + n.toNat := by
  have h1 := n.isLt
  have h2 := x.isLt
  have h3 := y.isLt
  simp only [wordXYNOf, BitVec.toNat_append]
  rw [Nat.shiftLeft_eq, Nat.shiftLeft_eq, Nat.shiftLeft_eq, Nat.mul_comm y.toNat, ← Nat.two_pow_add_eq_or_of_lt h1,
    Nat.mul_comm x.toNat, ← Nat.two_pow_add_eq_or_of_lt (by omega), Nat.mul_comm h.toNat,
    ← Nat.two_pow_add_eq_or_of_lt (by omega)]; omega

/-! The fields of an assembled word. -/

@[simp] theorem wordH_wordNNNOf (h : Nibble) (nnn : Addr) : wordH (wordNNNOf h nnn) = h := by
  have := nnn.isLt
  apply BitVec.eq_of_toNat_eq; rw [wordH_toNat, wordNNNOf_toNat]; omega
@[simp] theorem wordNNN_wordNNNOf (h : Nibble) (nnn : Addr) : wordNNN (wordNNNOf h nnn) = nnn := by
  have := nnn.isLt
  apply BitVec.eq_of_toNat_eq; rw [wordNNN_toNat, wordNNNOf_toNat]; omega

@[simp] theorem wordH_wordXNNOf (h x : Nibble) (nn : Byte) : wordH (wordXNNOf h x nn) = h := by
  have := nn.isLt; have := x.isLt
  apply BitVec.eq_of_toNat_eq; rw [wordH_toNat, wordXNNOf_toNat]; omega
@[simp] theorem wordX_wordXNNOf (h x : Nibble) (nn : Byte) : wordX (wordXNNOf h x nn) = x := by
  have := nn.isLt; have := x.isLt
  apply BitVec.eq_of_toNat_eq; rw [wordX_toNat, wordXNNOf_toNat]; omega
@[simp] theorem wordNN_wordXNNOf (h x : Nibble) (nn : Byte) : wordNN (wordXNNOf h x nn) = nn := by
  have := nn.isLt; have := x.isLt
  apply BitVec.eq_of_toNat_eq; rw [wordNN_toNat, wordXNNOf_toNat]; omega

@[simp] theorem wordH_wordXYNOf (h x y n : Nibble) : wordH (wordXYNOf h x y n) = h := by
  have := n.isLt; have := x.isLt; have := y.isLt
  apply BitVec.eq_of_toNat_eq; rw [wordH_toNat, wordXYNOf_toNat]; omega
@[simp] theorem wordX_wordXYNOf (h x y n : Nibble) : wordX (wordXYNOf h x y n) = x := by
  have := n.isLt; have := x.isLt; have := y.isLt
  apply BitVec.eq_of_toNat_eq; rw [wordX_toNat, wordXYNOf_toNat]; omega
@[simp] theorem wordY_wordXYNOf (h x y n : Nibble) : wordY (wordXYNOf h x y n) = y := by
  have := n.isLt; have := x.isLt; have := y.isLt
  apply BitVec.eq_of_toNat_eq; rw [wordY_toNat, wordXYNOf_toNat]; omega
@[simp] theorem wordN_wordXYNOf (h x y n : Nibble) : wordN (wordXYNOf h x y n) = n := by
  have := n.isLt; have := x.isLt; have := y.isLt
  apply BitVec.eq_of_toNat_eq; rw [wordN_toNat, wordXYNOf_toNat]; omega

/-! A word assembled from its own fields is the word. -/

theorem wordNNNOf_fields {w : Word} {h : Nibble} (hh : wordH w = h) : wordNNNOf h (wordNNN w) = w := by
  subst hh
  apply BitVec.eq_of_toNat_eq; rw [wordNNNOf_toNat, wordH_toNat, wordNNN_toNat]; omega

theorem wordXNNOf_fields {w : Word} {h : Nibble} {nn : Byte} (hh : wordH w = h) (hn : wordNN w = nn) :
    wordXNNOf h (wordX w) nn = w := by
  subst hh hn
  apply BitVec.eq_of_toNat_eq; rw [wordXNNOf_toNat, wordH_toNat, wordX_toNat, wordNN_toNat]; omega

theorem wordXYNOf_fields {w : Word} {h n : Nibble} (hh : wordH w = h) (hn : wordN w = n) :
    wordXYNOf h (wordX w) (wordY w) n = w := by
  subst hh hn
  apply BitVec.eq_of_toNat_eq; rw [wordXYNOf_toNat, wordH_toNat, wordX_toNat, wordY_toNat, wordN_toNat]; omega

/-- The two bytes of a word, high byte first, are the word (20_memory.md R52). -/
theorem wordOfBytes_bytesOfWord (w : Word) : wordOfBytes (bytesOfWord w).1 (bytesOfWord w).2 = w := by
  apply BitVec.eq_of_toNat_eq
  have := w.isLt
  have hlt := (w.extractLsb' 0 8).isLt
  simp only [wordOfBytes, bytesOfWord, BitVec.toNat_append] at *
  rw [Nat.shiftLeft_eq, Nat.mul_comm, ← Nat.two_pow_add_eq_or_of_lt hlt]
  simp only [BitVec.extractLsb'_toNat, Nat.shiftRight_eq_div_pow]; omega

/-- The word two bytes make (20_memory.md R52). -/
theorem wordOfBytes_toNat (hi lo : Byte) : (wordOfBytes hi lo).toNat = 256 * hi.toNat + lo.toNat := by
  have := lo.isLt
  simp only [wordOfBytes, BitVec.toNat_append]
  rw [Nat.shiftLeft_eq, Nat.mul_comm, ← Nat.two_pow_add_eq_or_of_lt this]

end Sys2Proof
end

