-- ==== Sys2Proof/Laws/State.lean ====
section
/-! SUPPORT. One lemma for each field of State and each named update of it. -/

namespace Sys2Proof.Machine

@[simp] theorem State.advance_memory (s : State) : s.advance.memory = s.memory := rfl
@[simp] theorem State.advance_v (s : State) : s.advance.v = s.v := rfl
@[simp] theorem State.advance_i (s : State) : s.advance.i = s.i := rfl
@[simp] theorem State.advance_pc (s : State) : s.advance.pc = s.pc + 2#16 := rfl
@[simp] theorem State.advance_stack (s : State) : s.advance.stack = s.stack := rfl
@[simp] theorem State.advance_dt (s : State) : s.advance.dt = s.dt := rfl
@[simp] theorem State.advance_st (s : State) : s.advance.st = s.st := rfl
@[simp] theorem State.advance_fb (s : State) : s.advance.fb = s.fb := rfl
@[simp] theorem State.advance_key (s : State) : s.advance.key = s.key := rfl
@[simp] theorem State.advance_state (s : State) : s.advance.state = s.state := rfl
@[simp] theorem State.advance_wait (s : State) : s.advance.wait = s.wait := rfl
@[simp] theorem State.advance_fault (s : State) : s.advance.fault = s.fault := rfl
@[simp] theorem State.advance_loadResult (s : State) : s.advance.loadResult = s.loadResult := rfl
@[simp] theorem State.advance_cfg (s : State) : s.advance.cfg = s.cfg := rfl
@[simp] theorem State.advance_inputs (s : State) : s.advance.inputs = s.inputs := rfl
@[simp] theorem State.advance_draws (s : State) : s.advance.draws = s.draws := rfl

@[simp] theorem State.setReg_memory (s : State) (x : Nibble) (b : Byte) : (s.setReg x b).memory = s.memory := rfl
@[simp] theorem State.setReg_v (s : State) (x : Nibble) (b : Byte) : (s.setReg x b).v = s.v.set x.toNat b x.isLt := rfl
@[simp] theorem State.setReg_i (s : State) (x : Nibble) (b : Byte) : (s.setReg x b).i = s.i := rfl
@[simp] theorem State.setReg_pc (s : State) (x : Nibble) (b : Byte) : (s.setReg x b).pc = s.pc := rfl
@[simp] theorem State.setReg_stack (s : State) (x : Nibble) (b : Byte) : (s.setReg x b).stack = s.stack := rfl
@[simp] theorem State.setReg_dt (s : State) (x : Nibble) (b : Byte) : (s.setReg x b).dt = s.dt := rfl
@[simp] theorem State.setReg_st (s : State) (x : Nibble) (b : Byte) : (s.setReg x b).st = s.st := rfl
@[simp] theorem State.setReg_fb (s : State) (x : Nibble) (b : Byte) : (s.setReg x b).fb = s.fb := rfl
@[simp] theorem State.setReg_key (s : State) (x : Nibble) (b : Byte) : (s.setReg x b).key = s.key := rfl
@[simp] theorem State.setReg_state (s : State) (x : Nibble) (b : Byte) : (s.setReg x b).state = s.state := rfl
@[simp] theorem State.setReg_wait (s : State) (x : Nibble) (b : Byte) : (s.setReg x b).wait = s.wait := rfl
@[simp] theorem State.setReg_fault (s : State) (x : Nibble) (b : Byte) : (s.setReg x b).fault = s.fault := rfl
@[simp] theorem State.setReg_loadResult (s : State) (x : Nibble) (b : Byte) : (s.setReg x b).loadResult = s.loadResult := rfl
@[simp] theorem State.setReg_cfg (s : State) (x : Nibble) (b : Byte) : (s.setReg x b).cfg = s.cfg := rfl
@[simp] theorem State.setReg_inputs (s : State) (x : Nibble) (b : Byte) : (s.setReg x b).inputs = s.inputs := rfl
@[simp] theorem State.setReg_draws (s : State) (x : Nibble) (b : Byte) : (s.setReg x b).draws = s.draws := rfl

@[simp] theorem State.jump_memory (s : State) (a : Word) : (s.jump a).memory = s.memory := rfl
@[simp] theorem State.jump_v (s : State) (a : Word) : (s.jump a).v = s.v := rfl
@[simp] theorem State.jump_i (s : State) (a : Word) : (s.jump a).i = s.i := rfl
@[simp] theorem State.jump_pc (s : State) (a : Word) : (s.jump a).pc = a := rfl
@[simp] theorem State.jump_stack (s : State) (a : Word) : (s.jump a).stack = s.stack := rfl
@[simp] theorem State.jump_dt (s : State) (a : Word) : (s.jump a).dt = s.dt := rfl
@[simp] theorem State.jump_st (s : State) (a : Word) : (s.jump a).st = s.st := rfl
@[simp] theorem State.jump_fb (s : State) (a : Word) : (s.jump a).fb = s.fb := rfl
@[simp] theorem State.jump_key (s : State) (a : Word) : (s.jump a).key = s.key := rfl
@[simp] theorem State.jump_state (s : State) (a : Word) : (s.jump a).state = s.state := rfl
@[simp] theorem State.jump_wait (s : State) (a : Word) : (s.jump a).wait = s.wait := rfl
@[simp] theorem State.jump_fault (s : State) (a : Word) : (s.jump a).fault = s.fault := rfl
@[simp] theorem State.jump_loadResult (s : State) (a : Word) : (s.jump a).loadResult = s.loadResult := rfl
@[simp] theorem State.jump_cfg (s : State) (a : Word) : (s.jump a).cfg = s.cfg := rfl
@[simp] theorem State.jump_inputs (s : State) (a : Word) : (s.jump a).inputs = s.inputs := rfl
@[simp] theorem State.jump_draws (s : State) (a : Word) : (s.jump a).draws = s.draws := rfl

@[simp] theorem State.skipIf_memory (s : State) (c : Bool) : (s.skipIf c).memory = s.memory := by cases c <;> rfl
@[simp] theorem State.skipIf_v (s : State) (c : Bool) : (s.skipIf c).v = s.v := by cases c <;> rfl
@[simp] theorem State.skipIf_i (s : State) (c : Bool) : (s.skipIf c).i = s.i := by cases c <;> rfl
@[simp] theorem State.skipIf_pc (s : State) (c : Bool) : (s.skipIf c).pc = if c then s.pc + 2#16 else s.pc := by cases c <;> rfl
@[simp] theorem State.skipIf_stack (s : State) (c : Bool) : (s.skipIf c).stack = s.stack := by cases c <;> rfl
@[simp] theorem State.skipIf_dt (s : State) (c : Bool) : (s.skipIf c).dt = s.dt := by cases c <;> rfl
@[simp] theorem State.skipIf_st (s : State) (c : Bool) : (s.skipIf c).st = s.st := by cases c <;> rfl
@[simp] theorem State.skipIf_fb (s : State) (c : Bool) : (s.skipIf c).fb = s.fb := by cases c <;> rfl
@[simp] theorem State.skipIf_key (s : State) (c : Bool) : (s.skipIf c).key = s.key := by cases c <;> rfl
@[simp] theorem State.skipIf_state (s : State) (c : Bool) : (s.skipIf c).state = s.state := by cases c <;> rfl
@[simp] theorem State.skipIf_wait (s : State) (c : Bool) : (s.skipIf c).wait = s.wait := by cases c <;> rfl
@[simp] theorem State.skipIf_fault (s : State) (c : Bool) : (s.skipIf c).fault = s.fault := by cases c <;> rfl
@[simp] theorem State.skipIf_loadResult (s : State) (c : Bool) : (s.skipIf c).loadResult = s.loadResult := by cases c <;> rfl
@[simp] theorem State.skipIf_cfg (s : State) (c : Bool) : (s.skipIf c).cfg = s.cfg := by cases c <;> rfl
@[simp] theorem State.skipIf_inputs (s : State) (c : Bool) : (s.skipIf c).inputs = s.inputs := by cases c <;> rfl
@[simp] theorem State.skipIf_draws (s : State) (c : Bool) : (s.skipIf c).draws = s.draws := by cases c <;> rfl

@[simp] theorem State.random_snd_memory (s : State) : s.random.2.memory = s.memory := rfl
@[simp] theorem State.random_snd_v (s : State) : s.random.2.v = s.v := rfl
@[simp] theorem State.random_snd_i (s : State) : s.random.2.i = s.i := rfl
@[simp] theorem State.random_snd_pc (s : State) : s.random.2.pc = s.pc := rfl
@[simp] theorem State.random_snd_stack (s : State) : s.random.2.stack = s.stack := rfl
@[simp] theorem State.random_snd_dt (s : State) : s.random.2.dt = s.dt := rfl
@[simp] theorem State.random_snd_st (s : State) : s.random.2.st = s.st := rfl
@[simp] theorem State.random_snd_fb (s : State) : s.random.2.fb = s.fb := rfl
@[simp] theorem State.random_snd_key (s : State) : s.random.2.key = s.key := rfl
@[simp] theorem State.random_snd_state (s : State) : s.random.2.state = s.state := rfl
@[simp] theorem State.random_snd_wait (s : State) : s.random.2.wait = s.wait := rfl
@[simp] theorem State.random_snd_fault (s : State) : s.random.2.fault = s.fault := rfl
@[simp] theorem State.random_snd_loadResult (s : State) : s.random.2.loadResult = s.loadResult := rfl
@[simp] theorem State.random_snd_cfg (s : State) : s.random.2.cfg = s.cfg := rfl
@[simp] theorem State.random_snd_inputs (s : State) : s.random.2.inputs = s.inputs := rfl
@[simp] theorem State.random_snd_draws (s : State) : s.random.2.draws = s.draws + 1 := rfl

@[simp] theorem State.storeData_memory (s : State) (bs : List Byte) : (s.storeData bs).memory = Memory.writeBytes s.memory s.i.toNat bs := rfl
@[simp] theorem State.storeData_v (s : State) (bs : List Byte) : (s.storeData bs).v = s.v := rfl
@[simp] theorem State.storeData_i (s : State) (bs : List Byte) : (s.storeData bs).i = s.i := rfl
@[simp] theorem State.storeData_pc (s : State) (bs : List Byte) : (s.storeData bs).pc = s.pc := rfl
@[simp] theorem State.storeData_stack (s : State) (bs : List Byte) : (s.storeData bs).stack = s.stack := rfl
@[simp] theorem State.storeData_dt (s : State) (bs : List Byte) : (s.storeData bs).dt = s.dt := rfl
@[simp] theorem State.storeData_st (s : State) (bs : List Byte) : (s.storeData bs).st = s.st := rfl
@[simp] theorem State.storeData_fb (s : State) (bs : List Byte) : (s.storeData bs).fb = s.fb := rfl
@[simp] theorem State.storeData_key (s : State) (bs : List Byte) : (s.storeData bs).key = s.key := rfl
@[simp] theorem State.storeData_state (s : State) (bs : List Byte) : (s.storeData bs).state = s.state := rfl
@[simp] theorem State.storeData_wait (s : State) (bs : List Byte) : (s.storeData bs).wait = s.wait := rfl
@[simp] theorem State.storeData_fault (s : State) (bs : List Byte) : (s.storeData bs).fault = s.fault := rfl
@[simp] theorem State.storeData_loadResult (s : State) (bs : List Byte) : (s.storeData bs).loadResult = s.loadResult := rfl
@[simp] theorem State.storeData_cfg (s : State) (bs : List Byte) : (s.storeData bs).cfg = s.cfg := rfl
@[simp] theorem State.storeData_inputs (s : State) (bs : List Byte) : (s.storeData bs).inputs = s.inputs := rfl
@[simp] theorem State.storeData_draws (s : State) (bs : List Byte) : (s.storeData bs).draws = s.draws := rfl

@[simp] theorem State.loadRegsUpTo_memory (s : State) (x : Nibble) : (s.loadRegsUpTo x).memory = s.memory := rfl
@[simp] theorem State.loadRegsUpTo_i (s : State) (x : Nibble) : (s.loadRegsUpTo x).i = s.i := rfl
@[simp] theorem State.loadRegsUpTo_pc (s : State) (x : Nibble) : (s.loadRegsUpTo x).pc = s.pc := rfl
@[simp] theorem State.loadRegsUpTo_stack (s : State) (x : Nibble) : (s.loadRegsUpTo x).stack = s.stack := rfl
@[simp] theorem State.loadRegsUpTo_dt (s : State) (x : Nibble) : (s.loadRegsUpTo x).dt = s.dt := rfl
@[simp] theorem State.loadRegsUpTo_st (s : State) (x : Nibble) : (s.loadRegsUpTo x).st = s.st := rfl
@[simp] theorem State.loadRegsUpTo_fb (s : State) (x : Nibble) : (s.loadRegsUpTo x).fb = s.fb := rfl
@[simp] theorem State.loadRegsUpTo_key (s : State) (x : Nibble) : (s.loadRegsUpTo x).key = s.key := rfl
@[simp] theorem State.loadRegsUpTo_state (s : State) (x : Nibble) : (s.loadRegsUpTo x).state = s.state := rfl
@[simp] theorem State.loadRegsUpTo_wait (s : State) (x : Nibble) : (s.loadRegsUpTo x).wait = s.wait := rfl
@[simp] theorem State.loadRegsUpTo_fault (s : State) (x : Nibble) : (s.loadRegsUpTo x).fault = s.fault := rfl
@[simp] theorem State.loadRegsUpTo_loadResult (s : State) (x : Nibble) : (s.loadRegsUpTo x).loadResult = s.loadResult := rfl
@[simp] theorem State.loadRegsUpTo_cfg (s : State) (x : Nibble) : (s.loadRegsUpTo x).cfg = s.cfg := rfl
@[simp] theorem State.loadRegsUpTo_inputs (s : State) (x : Nibble) : (s.loadRegsUpTo x).inputs = s.inputs := rfl
@[simp] theorem State.loadRegsUpTo_draws (s : State) (x : Nibble) : (s.loadRegsUpTo x).draws = s.draws := rfl

@[simp] theorem State.writeFR_memory (s : State) (x : Nibble) (flag res : Byte) : (s.writeFR x flag res).memory = s.memory := by unfold State.writeFR; split <;> rfl
@[simp] theorem State.writeFR_i (s : State) (x : Nibble) (flag res : Byte) : (s.writeFR x flag res).i = s.i := by unfold State.writeFR; split <;> rfl
@[simp] theorem State.writeFR_pc (s : State) (x : Nibble) (flag res : Byte) : (s.writeFR x flag res).pc = s.pc := by unfold State.writeFR; split <;> rfl
@[simp] theorem State.writeFR_stack (s : State) (x : Nibble) (flag res : Byte) : (s.writeFR x flag res).stack = s.stack := by unfold State.writeFR; split <;> rfl
@[simp] theorem State.writeFR_dt (s : State) (x : Nibble) (flag res : Byte) : (s.writeFR x flag res).dt = s.dt := by unfold State.writeFR; split <;> rfl
@[simp] theorem State.writeFR_st (s : State) (x : Nibble) (flag res : Byte) : (s.writeFR x flag res).st = s.st := by unfold State.writeFR; split <;> rfl
@[simp] theorem State.writeFR_fb (s : State) (x : Nibble) (flag res : Byte) : (s.writeFR x flag res).fb = s.fb := by unfold State.writeFR; split <;> rfl
@[simp] theorem State.writeFR_key (s : State) (x : Nibble) (flag res : Byte) : (s.writeFR x flag res).key = s.key := by unfold State.writeFR; split <;> rfl
@[simp] theorem State.writeFR_state (s : State) (x : Nibble) (flag res : Byte) : (s.writeFR x flag res).state = s.state := by unfold State.writeFR; split <;> rfl
@[simp] theorem State.writeFR_wait (s : State) (x : Nibble) (flag res : Byte) : (s.writeFR x flag res).wait = s.wait := by unfold State.writeFR; split <;> rfl
@[simp] theorem State.writeFR_fault (s : State) (x : Nibble) (flag res : Byte) : (s.writeFR x flag res).fault = s.fault := by unfold State.writeFR; split <;> rfl
@[simp] theorem State.writeFR_loadResult (s : State) (x : Nibble) (flag res : Byte) : (s.writeFR x flag res).loadResult = s.loadResult := by unfold State.writeFR; split <;> rfl
@[simp] theorem State.writeFR_cfg (s : State) (x : Nibble) (flag res : Byte) : (s.writeFR x flag res).cfg = s.cfg := by unfold State.writeFR; split <;> rfl
@[simp] theorem State.writeFR_inputs (s : State) (x : Nibble) (flag res : Byte) : (s.writeFR x flag res).inputs = s.inputs := by unfold State.writeFR; split <;> rfl
@[simp] theorem State.writeFR_draws (s : State) (x : Nibble) (flag res : Byte) : (s.writeFR x flag res).draws = s.draws := by unfold State.writeFR; split <;> rfl

end Sys2Proof.Machine
end

