-- ==== Sys2Proof/Laws/Registers.lean ====
section
/-! SUPPORT. What reading a register gives after each update of the register file (10_state.md R21). -/

namespace Sys2Proof.Machine

/-- Two states with the same register file read the same. -/
theorem State.reg_congr {s t : State} (h : t.v = s.v) (r : Nibble) : t.reg r = s.reg r := by
  simp [State.reg, h]

@[simp] theorem State.reg_advance (s : State) (r : Nibble) : s.advance.reg r = s.reg r := rfl

@[simp] theorem State.reg_jump (s : State) (a : Word) (r : Nibble) : (s.jump a).reg r = s.reg r := rfl

@[simp] theorem State.reg_random (s : State) (r : Nibble) : s.random.2.reg r = s.reg r := rfl

@[simp] theorem State.reg_skipIf (s : State) (c : Bool) (r : Nibble) : (s.skipIf c).reg r = s.reg r := by
  cases c <;> rfl

@[simp] theorem State.reg_storeData (s : State) (bs : List Byte) (r : Nibble) : (s.storeData bs).reg r = s.reg r := rfl

/-- A write changes exactly the register it names. -/
theorem State.reg_setReg (s : State) (x r : Nibble) (b : Byte) :
    (s.setReg x b).reg r = if r = x then b else s.reg r := by
  simp only [State.reg, State.setReg, Vector.getElem_set, BitVec.toNat_inj, eq_comm]

@[simp] theorem State.reg_setReg_self (s : State) (x : Nibble) (b : Byte) : (s.setReg x b).reg x = b := by
  simp [State.reg_setReg]

theorem State.reg_setReg_of_ne (s : State) {x r : Nibble} (h : r ≠ x) (b : Byte) :
    (s.setReg x b).reg r = s.reg r := by
  simp [State.reg_setReg, h]

/-- A register file is its sixteen reads. -/
theorem State.v_ext {s t : State} (h : ∀ r, t.reg r = s.reg r) : t.v = s.v := by
  apply Vector.ext
  intro k hk
  have := h (BitVec.ofNat 4 k)
  simpa [State.reg, Nat.mod_eq_of_lt hk] using this

/-- `WriteFR` writes the result to VX and the flag to VF; where X is F the later write wins
(42_register_alu.md R120). -/
theorem State.reg_writeFR (s : State) (x r : Nibble) (flag res : Byte) :
    (s.writeFR x flag res).reg r =
      if r = x then (if x = vF ∧ s.cfg.vfOrder = .resultThenFlag then flag else res)
      else if r = vF then flag else s.reg r := by
  unfold State.writeFR
  cases h : s.cfg.vfOrder <;> simp only [State.reg_setReg] <;> split_ifs <;> simp_all

/-- `LD VX, [I]` replaces exactly V0..VX (46_fx_extension.md R188). -/
theorem State.reg_loadRegsUpTo (s : State) (x r : Nibble) :
    (s.loadRegsUpTo x).reg r = if r.toNat ≤ x.toNat then s.dataByte r.toNat else s.reg r := by
  simp [State.reg, State.loadRegsUpTo]

/-- The register bytes `LD [I], VX` stores: V0..VX in order (46_fx_extension.md R187). -/
theorem State.regsUpTo_length (s : State) (x : Nibble) : (s.regsUpTo x).length = x.toNat + 1 := by
  have := x.isLt
  simp [State.regsUpTo]; omega

theorem State.regsUpTo_getElem (s : State) (x : Nibble) (k : Nat) (h : k < (s.regsUpTo x).length) :
    (s.regsUpTo x)[k] = s.reg (BitVec.ofNat 4 k) := by
  have h' : k < 16 := by have := x.isLt; rw [State.regsUpTo_length] at h; omega
  simp [State.regsUpTo, State.reg, Nat.mod_eq_of_lt h']

end Sys2Proof.Machine
end

