-- ==== Sys2Proof/Laws/Ops.lean ====
section
/-! SUPPORT. What each shared operation of Ops.lean and Operands.lean can do. -/

namespace Sys2Proof.Machine

/-! The call stack (41_control_flow.md R100, R101). -/

theorem State.push_eq_some {s t : State} {a : Word} :
    s.push a = some t ↔ s.sp < s.cfg.stackDepth ∧ t = { s with stack := a :: s.stack } := by
  unfold State.push
  split_ifs with h
  · simp; omega
  · simp [eq_comm]; omega

theorem State.push_eq_none {s : State} {a : Word} : s.push a = none ↔ s.cfg.stackDepth ≤ s.sp := by
  unfold State.push
  split_ifs with h <;> simp [h]

theorem State.pop_eq_some {s t : State} {a : Word} :
    s.pop = some (a, t) ↔ ∃ rest, s.stack = a :: rest ∧ t = { s with stack := rest } := by
  unfold State.pop
  split <;> rename_i h <;> simp [h, eq_comm]

theorem State.pop_eq_none {s : State} : s.pop = none ↔ s.sp = 0 := by
  unfold State.pop State.sp
  split <;> rename_i h <;> simp [h]

@[simp] theorem State.sp_advance (s : State) : s.advance.sp = s.sp := rfl

/-- The most recent entry is `stack[SP-1]`, and a push leaves the older ones in place (10_state.md R25). -/
theorem State.stackEntry_of_cons {s : State} {a : Word} {rest : List Word} (h : s.stack = a :: rest) (k : Nat) :
    s.stackEntry k = if k = rest.length then some a else rest.reverse[k]? := by
  rw [State.stackEntry, h, List.reverse_cons, List.getElem?_append]
  rcases Nat.lt_trichotomy k rest.length with hk | hk | hk
  · simp [hk, Nat.ne_of_lt hk]
  · simp [hk]
  · rw [if_neg (by simp; omega), if_neg (by omega), List.getElem?_eq_none (by simp; omega),
      List.getElem?_eq_none (by simp; omega)]

/-! Faults (60_exceptions.md R203). -/

theorem raiseFault_eq (code : FaultCode) (s : State) :
    raiseFault code s = .next { s with fault := some code, state := .halted } := rfl

/-! The fetch (40_cycle.md R91). -/

theorem State.fetch_eq_some {s : State} {w : Word} :
    s.fetch = some w ↔ s.pc.toNat + 1 < memSize ∧
      w = wordOfBytes (Memory.read s.memory s.pc.toNat) (Memory.read s.memory (s.pc.toNat + 1)) := by
  unfold State.fetch
  split_ifs with h
  · simp; omega
  · simp [eq_comm]; omega

theorem State.fetch_eq_none {s : State} : s.fetch = none ↔ memSize ≤ s.pc.toNat + 1 := by
  unfold State.fetch
  split_ifs with h <;> simp [h]

/-! Data access (20_memory.md R53). -/

theorem State.dataAccessOk_iff (s : State) (n : Nat) :
    s.dataAccessOk n = true ↔ n = 0 ∨ s.i.toNat + n ≤ memSize := by
  simp [State.dataAccessOk, dataInRange, State.dataAddress]

end Sys2Proof.Machine
end

