-- ==== Sys2Proof/Laws/Cycle.lean ====
section
/-! SUPPORT. What a cycle, a host operation and a step can do. -/

namespace Sys2Proof

/-- The legal ranges in plain arithmetic (00_scope.md R6). -/
theorem Config.legal_iff (c : Config) :
    c.legal = true ↔ 12 ≤ c.stackDepth ∧ c.stackDepth ≤ 16 ∧ 80 ≤ c.entry ∧ c.entry ≤ 4096 ∧
      1 ≤ c.dispW ∧ 1 ≤ c.dispH := by
  simp only [Config.legal, Bool.and_eq_true, decide_eq_true_eq, and_assoc]; rfl

/-- Two bytes decode as their word does (20_memory.md R52). -/
theorem decode_pair_ok (c : Config) (hi lo : Byte) (i : Instr) :
    decode c [hi, lo] = .ok (i, []) ↔ decodeWord c (wordOfBytes hi lo) = .ok i := by
  simp only [decode, Except.map]
  split <;> simp_all

theorem decode_pair_error (c : Config) (hi lo : Byte) (e : Rejection) :
    decode c [hi, lo] = .error e ↔ decodeWord c (wordOfBytes hi lo) = .error e := by
  simp only [decode, Except.map]
  split <;> simp_all

end Sys2Proof

namespace Sys2Proof.Machine

/-- The instruction at PC is the one the fetched word decodes to. -/
theorem State.fetchesInstr_iff (s : State) (i : Instr) :
    s.FetchesInstr i ↔ ∃ w, s.fetch = some w ∧ decodeWord s.cfg w = .ok i := by
  simp only [State.FetchesInstr, decode_pair_ok, State.fetch_eq_some]
  constructor
  · rintro ⟨h, hd⟩; exact ⟨_, ⟨h, rfl⟩, hd⟩
  · rintro ⟨w, ⟨h, rfl⟩, hd⟩; exact ⟨h, hd⟩

theorem State.cycleEnabled_iff (s : State) : s.cycleEnabled = true ↔ s.state = .running ∧ s.wait = none := by
  simp [State.cycleEnabled]

/-- All a cycle can do (40_cycle.md R97). -/
theorem cycle_cases {s t : State} (h : cycle s = .next t) :
    (s.cycleEnabled = false ∧ t = s) ∨
    (s.cycleEnabled = true ∧ s.fetch = none ∧ t = s.faulted .pcOutOfRange) ∨
    (∃ w e, s.cycleEnabled = true ∧ s.fetch = some w ∧ decodeWord s.cfg w = .error e ∧ t = s.advance) ∨
    (∃ w i, s.cycleEnabled = true ∧ s.fetch = some w ∧ decodeWord s.cfg w = .ok i ∧ exec i s = .next t) := by
  unfold cycle at h
  split at h
  · rename_i he
    split at h
    · rename_i hf
      cases h; exact Or.inr (Or.inl ⟨he, hf, rfl⟩)
    · rename_i w hf
      unfold execWord at h
      split at h
      · rename_i i hd
        exact Or.inr (Or.inr (Or.inr ⟨w, i, he, hf, hd, h⟩))
      · rename_i e hd
        cases h; exact Or.inr (Or.inr (Or.inl ⟨w, e, he, hf, hd, rfl⟩))
  · rename_i he
    cases h; exact Or.inl ⟨by simpa using he, rfl⟩

/-- A cycle that executes an instruction is `exec` of it. -/
theorem cycle_of_instr {s : State} {w : Word} {i : Instr} (he : s.cycleEnabled = true) (hf : s.fetch = some w)
    (hd : decodeWord s.cfg w = .ok i) : cycle s = exec i s := by
  rw [cycle, if_pos he, hf]
  simp only [execWord, hd]

/-- All a step can do: the host's next operation, under a legal configuration. -/
theorem step_cases {s t : State} (h : step s = .next t) :
    s.cfg.legal = true ∧ hostOp (nextOp s).1 (nextOp s).2 = .next t := by
  simp only [step, hostStep] at h
  split at h
  · exact ⟨by assumption, h⟩
  · cases h

/-- All a host operation can do. -/
theorem hostOp_cases {op : HostOp} {s t : State} (h : hostOp op s = .next t) :
    (∃ rom, op = .load rom ∧ t = load rom s) ∨ (op = .cycle ∧ cycle s = .next t) ∨ (op = .tick ∧ t = tick s) ∨
    (∃ k, op = .keyDown k ∧ k < 16 ∧ t = keyDown k s) ∨ (∃ k, op = .keyUp k ∧ k < 16 ∧ t = keyUp k s) ∨
    (op = .togglePause ∧ t = togglePause s) ∨ (op = .quit ∧ t = quit s) := by
  cases op <;> simp only [hostOp] at h
  case cycle => exact Or.inr (Or.inl ⟨rfl, h⟩)
  case keyDown k => split_ifs at h with hk; cases h; simp [hk]
  case keyUp k => split_ifs at h with hk; cases h; simp [hk]
  all_goals cases h; simp

/-- A Load fits in plain arithmetic (70_reset_and_hazards.md R243). -/
theorem romTooLarge_iff (c : Config) (rom : List Byte) :
    romTooLarge c rom = true ↔ 4096 - c.entry < rom.length := by
  rw [romTooLarge, decide_eq_true_eq]; rfl

/-- The next operation is taken off the list and nothing else changes. -/
theorem nextOp_snd (s : State) : (nextOp s).2 = { s with inputs := s.inputs.tail } := by
  unfold nextOp
  split <;> rename_i h <;> simp [h]
  rw [← h]

end Sys2Proof.Machine
end

