-- ==== Sys2Proof/Laws/Framebuffer.lean ====
section
/-! SUPPORT. Reading cells after toggling, and the canonical form of the framebuffer (10_state.md R28). -/

namespace Sys2Proof.Machine

@[simp] theorem Framebuffer.lit_nil (k : Nat) : Framebuffer.lit [] k = false := rfl

theorem Framebuffer.lit_iff (fb : Framebuffer) (k : Nat) : Framebuffer.lit fb k = true ↔ k ∈ fb := by
  simp [Framebuffer.lit]

theorem Framebuffer.mem_insert (fb : Framebuffer) (k j : Nat) : j ∈ Framebuffer.insert fb k ↔ j = k ∨ j ∈ fb := by
  induction fb with
  | nil => simp [Framebuffer.insert]
  | cons e fb ih => rw [Framebuffer.insert]; split_ifs <;> simp [ih]; tauto

/-- A toggle inverts exactly the cell it names. It holds of every framebuffer, canonical or not. -/
theorem Framebuffer.lit_toggle (fb : Framebuffer) (k j : Nat) :
    Framebuffer.lit (Framebuffer.toggle fb k) j = xor (decide (j = k)) (Framebuffer.lit fb j) := by
  rw [Bool.eq_iff_iff, Framebuffer.lit_iff, Framebuffer.toggle]
  by_cases hjk : j = k
  · subst hjk
    split_ifs with h <;> simp [Framebuffer.mem_insert, h]
  · split_ifs with h <;> simp [Framebuffer.mem_insert, hjk, Framebuffer.lit_iff]

theorem Framebuffer.insert_pairwise {fb : Framebuffer} {k : Nat} (h : fb.Pairwise (· < ·)) (hk : k ∉ fb) :
    (Framebuffer.insert fb k).Pairwise (· < ·) := by
  induction fb with
  | nil => simp [Framebuffer.insert]
  | cons e fb ih =>
    rw [List.pairwise_cons] at h
    simp only [List.mem_cons, not_or] at hk
    rw [Framebuffer.insert]
    split_ifs with hlt
    · refine List.pairwise_cons.2 ⟨fun d hd => ?_, List.pairwise_cons.2 h⟩
      rcases List.mem_cons.1 hd with rfl | hd
      · exact hlt
      · exact lt_trans hlt (h.1 d hd)
    · refine List.pairwise_cons.2 ⟨fun d hd => ?_, ih h.2 hk.2⟩
      rcases (Framebuffer.mem_insert _ _ _).1 hd with rfl | hd
      · omega
      · exact h.1 d hd

/-- A toggle on the screen keeps the canonical form. -/
theorem Framebuffer.toggle_wf {fb : Framebuffer} {cells k : Nat} (h : Framebuffer.wf fb cells) (hk : k < cells) :
    Framebuffer.wf (Framebuffer.toggle fb k) cells := by
  unfold Framebuffer.toggle
  split_ifs with hlit
  · exact ⟨h.1.filter _, fun j hj => h.2 j (List.mem_of_mem_filter hj)⟩
  · refine ⟨Framebuffer.insert_pairwise h.1 (by simpa [Framebuffer.lit_iff] using hlit), fun j hj => ?_⟩
    rcases (Framebuffer.mem_insert _ _ _).1 hj with rfl | hj
    · exact hk
    · exact h.2 j hj

/-- The clear framebuffer has the canonical form. -/
theorem Framebuffer.wf_nil (cells : Nat) : Framebuffer.wf [] cells := ⟨List.Pairwise.nil, by simp⟩

/-- Two canonical framebuffers with the same cells lit are the same data. -/
theorem Framebuffer.eq_of_lit_eq {fb fb' : Framebuffer} (h : fb.Pairwise (· < ·)) (h' : fb'.Pairwise (· < ·))
    (heq : ∀ k, Framebuffer.lit fb k = Framebuffer.lit fb' k) : fb = fb' := by
  have nodup {l : Framebuffer} (hl : l.Pairwise (· < ·)) : l.Nodup := hl.imp (fun h => Nat.ne_of_lt h)
  have hperm : fb.Perm fb' := (List.perm_ext_iff_of_nodup (nodup h) (nodup h')).2 fun k => by
    rw [← Framebuffer.lit_iff, ← Framebuffer.lit_iff, heq]
  exact hperm.eq_of_pairwise (fun a b _ _ hab hba => absurd hab (by omega)) h h'

end Sys2Proof.Machine
end

