-- ==== Sys2Proof/Laws/Draw.lean ====
section
/-! SUPPORT. Drawing a sprite is XORing a list of cells in order (43_display.md R152). -/

namespace Sys2Proof.Machine

/-- The cells one sprite byte XORs in row `y`, in order. -/
def rowCells (c : Config) (ox y : Nat) (sprite : Byte) : List Nat :=
  [0, 1, 2, 3, 4, 5, 6, 7].filterMap fun col =>
    match targetColumn c ox col with
    | none => none
    | some x => if spriteBit sprite col then some (cellIndex c x y) else none

/-- The cells the sprite's last `n` rows from `row` on XOR, in order. -/
def spriteCells (s : State) (ox oy : Nat) : Nat → Nat → List Nat
  | 0, _ => []
  | n + 1, row =>
    if s.cfg.dispH ≤ oy + row then []
    else rowCells s.cfg ox (oy + row) (s.dataByte row) ++ spriteCells s ox oy n (row + 1)

theorem drawRow_eq (c : Config) (ox y : Nat) (sprite : Byte) (p : Canvas) :
    drawRow c ox y sprite p = (rowCells c ox y sprite).foldl xorCell p := by
  unfold drawRow rowCells
  generalize [0, 1, 2, 3, 4, 5, 6, 7] = cols
  induction cols generalizing p with
  | nil => rfl
  | cons col cols ih =>
    rw [List.foldl_cons, ih, List.filterMap_cons, drawColumn]
    cases targetColumn c ox col with
    | none => rfl
    | some x => dsimp only; split_ifs <;> rfl

/-- The draw XORs the sprite's cells in order. -/
theorem drawRows_eq (s : State) (ox oy n row : Nat) (p : Canvas) :
    drawRows s ox oy n row p = (spriteCells s ox oy n row).foldl xorCell p := by
  induction n generalizing row p with
  | zero => rfl
  | succ n ih =>
    rw [drawRows, spriteCells]
    split_ifs
    · rfl
    · rw [List.foldl_append, ih, drawRow_eq]

/-- A cell after a run of XORs is inverted where it was named an odd number of times. -/
theorem foldl_xorCell_lit (ks : List Nat) (p : Canvas) (k : Nat) :
    Framebuffer.lit (ks.foldl xorCell p).fb k = xor (ks.count k % 2 == 1) (Framebuffer.lit p.fb k) := by
  induction ks generalizing p with
  | nil => simp
  | cons j ks ih =>
    rw [List.foldl_cons, ih, xorCell, Framebuffer.lit_toggle]
    by_cases h : j = k
    · subst h
      rw [List.count_cons_self]
      rcases Nat.mod_two_eq_zero_or_one (ks.count j) with h | h <;> simp [h, Nat.add_mod]
    · simp [List.count_cons_of_ne h, Ne.symm h]

/-- A run of XORs keeps the canonical form. -/
theorem foldl_xorCell_wf {cells : Nat} {ks : List Nat} (hks : ∀ k ∈ ks, k < cells) {p : Canvas}
    (h : Framebuffer.wf p.fb cells) : Framebuffer.wf (ks.foldl xorCell p).fb cells := by
  induction ks generalizing p with
  | nil => exact h
  | cons k ks ih =>
    exact ih (fun j hj => hks j (by simp [hj])) (p := xorCell p k) (Framebuffer.toggle_wf h (hks k (by simp)))

/-- A run of XORs collides where a cell is named while lit: lit before, or by an earlier XOR of the run. -/
theorem foldl_xorCell_collision (ks : List Nat) (p : Canvas) :
    (ks.foldl xorCell p).collision = true ↔
      p.collision = true ∨ ∃ k, 1 ≤ ks.count k ∧ 2 ≤ ks.count k + (if Framebuffer.lit p.fb k then 1 else 0) := by
  induction ks generalizing p with
  | nil => simp
  | cons j ks ih =>
    rw [List.foldl_cons, ih]
    simp only [xorCell, Framebuffer.lit_toggle, Bool.or_eq_true, or_assoc]
    refine or_congr_right ⟨?_, ?_⟩
    · rintro (hlit | ⟨k, h1, h2⟩)
      · exact ⟨j, by simp, by simp [hlit]⟩
      · by_cases hk : k = j
        · subst hk
          refine ⟨k, by simp, ?_⟩
          simp only [List.count_cons_self]
          split at h2 <;> split <;> omega
        · refine ⟨k, by rw [List.count_cons_of_ne (Ne.symm hk)]; exact h1, ?_⟩
          rw [List.count_cons_of_ne (Ne.symm hk)]
          simpa [hk] using h2
    · rintro ⟨k, h1, h2⟩
      by_cases hk : k = j
      · subst hk
        rw [List.count_cons_self] at h2
        cases hl : Framebuffer.lit p.fb k
        · simp only [hl, Bool.false_eq_true, if_false] at h2
          exact Or.inr ⟨k, by omega, by rw [hl, decide_eq_true rfl, Bool.true_xor, Bool.not_false, if_pos rfl]; omega⟩
        · exact Or.inl rfl
      · rw [List.count_cons_of_ne (Ne.symm hk)] at h1 h2
        exact Or.inr ⟨k, h1, by simpa [hk] using h2⟩

/-- A drawn column lies on the screen (43_display.md R154). -/
theorem targetColumn_lt {c : Config} (hw : 1 ≤ c.dispW) {ox col x : Nat} (h : targetColumn c ox col = some x) :
    x < c.dispW := by
  unfold targetColumn at h
  split at h
  · cases h; exact Nat.mod_lt _ hw
  · split_ifs at h with hlt; cases h; omega

theorem cellIndex_lt {c : Config} {x y : Nat} (hx : x < c.dispW) (hy : y < c.dispH) :
    cellIndex c x y < c.dispW * c.dispH := by
  have : (y + 1) * c.dispW ≤ c.dispH * c.dispW := Nat.mul_le_mul_right _ hy
  rw [Nat.mul_comm c.dispW]
  simp only [cellIndex]; linarith [Nat.succ_mul y c.dispW]

/-- Two cells of the screen have different indices (10_state.md R28). -/
theorem cellIndex_inj {c : Config} {x y x' y' : Nat} (hx : x < c.dispW) (hx' : x' < c.dispW) :
    cellIndex c x y = cellIndex c x' y' ↔ x = x' ∧ y = y' := by
  constructor
  · intro h
    have hpos : 0 < c.dispW := by omega
    have hm := congrArg (· % c.dispW) h
    have hd := congrArg (· / c.dispW) h
    simp only [cellIndex, Nat.mul_comm _ c.dispW, Nat.mul_add_mod, Nat.mul_add_div hpos, Nat.mod_eq_of_lt hx,
      Nat.mod_eq_of_lt hx', Nat.div_eq_of_lt hx, Nat.div_eq_of_lt hx', Nat.add_zero] at hm hd
    exact ⟨hm, hd⟩
  · rintro ⟨rfl, rfl⟩; rfl

/-- Every cell a draw XORs lies on the screen (43_display.md R154, R156). -/
theorem spriteCells_on_screen {s : State} (hw : 1 ≤ s.cfg.dispW) {ox oy n row k : Nat}
    (h : k ∈ spriteCells s ox oy n row) : ∃ x y, x < s.cfg.dispW ∧ y < s.cfg.dispH ∧ k = cellIndex s.cfg x y := by
  induction n generalizing row with
  | zero => simp [spriteCells] at h
  | succ n ih =>
    rw [spriteCells] at h
    split_ifs at h with hb
    · simp at h
    · rcases List.mem_append.1 h with h | h
      · obtain ⟨col, -, hcol⟩ := List.mem_filterMap.1 h
        cases ht : targetColumn s.cfg ox col with
        | none => simp [ht] at hcol
        | some x =>
          simp only [ht, Option.ite_none_right_eq_some, Option.some.injEq] at hcol
          exact ⟨x, oy + row, targetColumn_lt hw ht, by omega, hcol.2.symm⟩
      · exact ih h

/-- The XORs a row makes on cell (cx, cy): none on another row, and on its own as many as sprite bits 1 that fall on
the column. -/
theorem rowCells_count {c : Config} (hw : 1 ≤ c.dispW) (ox y : Nat) (sprite : Byte) {cx cy : Nat} (hx : cx < c.dispW) :
    (rowCells c ox y sprite).count (cellIndex c cx cy) =
      if y = cy then
        ((List.range 8).filter fun col => (targetColumn c ox col == some cx) && spriteBit sprite col).length
      else 0 := by
  have hr : List.range 8 = [0, 1, 2, 3, 4, 5, 6, 7] := rfl
  rw [rowCells, hr]
  generalize [0, 1, 2, 3, 4, 5, 6, 7] = cols
  induction cols with
  | nil => simp
  | cons col cols ih =>
    rw [List.filterMap_cons]
    cases ht : targetColumn c ox col with
    | none => simp [ht, ih]
    | some x =>
      have hxlt := targetColumn_lt hw ht
      by_cases hb : spriteBit sprite col = true
      · simp only [hb, if_true, List.count_cons, ih, beq_iff_eq, cellIndex_inj hxlt hx, List.filter_cons, ht,
          Option.some.injEq, Bool.and_true]
        by_cases hxx : x = cx <;> by_cases hyy : y = cy <;> simp [hxx, hyy]
      · simp [hb, ih, ht]

/-- The XORs the sprite makes on a cell of the screen: those of the one row drawn there. -/
theorem spriteCells_count {s : State} (hw : 1 ≤ s.cfg.dispW) (ox oy n row : Nat) {cx cy : Nat} (hx : cx < s.cfg.dispW)
    (hy : cy < s.cfg.dispH) :
    (spriteCells s ox oy n row).count (cellIndex s.cfg cx cy) =
      if oy + row ≤ cy ∧ cy < oy + row + n then
        ((List.range 8).filter fun col =>
          (targetColumn s.cfg ox col == some cx) && spriteBit (s.dataByte (cy - oy)) col).length
      else 0 := by
  induction n generalizing row with
  | zero => rw [if_neg (by omega)]; simp [spriteCells]
  | succ n ih =>
    rw [spriteCells]
    by_cases hb : s.cfg.dispH ≤ oy + row
    · rw [if_pos hb, if_neg (by omega)]; simp
    · rw [if_neg hb, List.count_append, ih, rowCells_count hw _ _ _ hx]
      by_cases h1 : oy + row = cy
      · subst h1
        rw [if_pos rfl, if_neg (by omega), if_pos (by omega)]
        simp
      · rw [if_neg h1, Nat.zero_add]
        split_ifs <;> first | rfl | omega

end Sys2Proof.Machine
end

