-- ==== Sys2Proof/Laws/Memory.lean ====
section
/-! SUPPORT. Reading after writing, and the canonical form of memory (20_memory.md R56). -/

namespace Sys2Proof.Machine

@[simp] theorem Memory.read_nil (a : Nat) : Memory.read [] a = 0#8 := rfl

/-- An address no cell lists reads 0. -/
theorem Memory.read_of_unlisted {m : Memory} {a : Nat} (h : ∀ c ∈ m, c.1 ≠ a) : Memory.read m a = 0#8 := by
  induction m with
  | nil => rfl
  | cons c m ih =>
    rw [Memory.read, if_neg (h c (by simp))]
    exact ih fun d hd => h d (by simp [hd])

theorem Memory.read_filter_ne (m : Memory) (a k : Nat) :
    Memory.read (m.filter fun c => c.1 != a) k = if k = a then 0#8 else Memory.read m k := by
  induction m with
  | nil => simp
  | cons c m ih =>
    by_cases hc : c.1 = a
    · simp only [hc, bne_self_eq_false, Bool.false_eq_true, not_false_eq_true, List.filter_cons_of_neg, ih, Memory.read]
      split_ifs <;> simp_all
    · simp only [List.filter_cons, bne_iff_ne, ne_eq, hc, not_false_eq_true, if_true, Memory.read, ih]
      split_ifs <;> simp_all

theorem Memory.read_insert {m : Memory} {c : Host.Cell} (h : ∀ d ∈ m, d.1 ≠ c.1) (k : Nat) :
    Memory.read (Memory.insert m c) k = if k = c.1 then c.2 else Memory.read m k := by
  induction m with
  | nil => simp [Memory.insert, Memory.read, eq_comm]
  | cons d m ih =>
    have hd : d.1 ≠ c.1 := h d (by simp)
    have ih := ih fun e he => h e (by simp [he])
    rw [Memory.insert]
    split_ifs with h1 h2 h2 <;> simp_all [Memory.read, eq_comm]

/-- Read after write (20_memory.md R56): the written address gives the byte written, every other address what it gave
before. It holds of every memory, canonical or not. -/
theorem Memory.read_write (m : Memory) (a k : Nat) (b : Byte) :
    Memory.read (Memory.write m a b) k = if k = a then b else Memory.read m k := by
  have habs : ∀ d ∈ m.filter (fun c => c.1 != a), d.1 ≠ a := by simp
  unfold Memory.write
  split_ifs with hb hk hk
  · simp [Memory.read_filter_ne, hk, hb]
  · simp [Memory.read_filter_ne, hk]
  · simp [Memory.read_insert (c := (a, b)) habs, hk]
  · simp [Memory.read_insert (c := (a, b)) habs, hk, Memory.read_filter_ne]

/-- Read after a run of writes: the bytes in order from `a`, and every other address as before. -/
theorem Memory.read_writeBytes (bs : List Byte) (m : Memory) (a k : Nat) :
    Memory.read (Memory.writeBytes m a bs) k =
      if a ≤ k then (bs[k - a]?).getD (Memory.read m k) else Memory.read m k := by
  induction bs generalizing m a with
  | nil => simp [Memory.writeBytes]
  | cons b bs ih =>
    rw [Memory.writeBytes, ih, Memory.read_write]
    rcases Nat.lt_trichotomy k a with h | h | h
    · rw [if_neg (by omega), if_neg (by omega), if_neg (by omega)]
    · subst h; simp
    · obtain ⟨j, rfl⟩ : ∃ j, k = a + 1 + j := ⟨k - (a + 1), by omega⟩
      simp [show a + 1 + j - a = j + 1 by omega, show a + 1 + j ≠ a by omega, show a ≤ a + 1 + j by omega]

theorem Memory.mem_insert (m : Memory) (c d : Host.Cell) : d ∈ Memory.insert m c ↔ d = c ∨ d ∈ m := by
  induction m with
  | nil => simp [Memory.insert]
  | cons e m ih => rw [Memory.insert]; split_ifs <;> simp [ih]; tauto

theorem Memory.insert_pairwise {m : Memory} {c : Host.Cell} (hm : m.Pairwise fun a b => a.1 < b.1)
    (h : ∀ d ∈ m, d.1 ≠ c.1) : (Memory.insert m c).Pairwise fun a b => a.1 < b.1 := by
  induction m with
  | nil => simp [Memory.insert]
  | cons e m ih =>
    rw [List.pairwise_cons] at hm
    have hne := h e (by simp)
    rw [Memory.insert]
    split_ifs with hlt
    · refine List.pairwise_cons.2 ⟨fun d hd => ?_, List.pairwise_cons.2 hm⟩
      rcases List.mem_cons.1 hd with rfl | hd
      · exact hlt
      · exact lt_trans hlt (hm.1 d hd)
    · refine List.pairwise_cons.2 ⟨fun d hd => ?_, ih hm.2 fun d hd => h d (by simp [hd])⟩
      rcases (Memory.mem_insert _ _ _).1 hd with rfl | hd
      · omega
      · exact hm.1 d hd

/-- A write in the address space keeps the canonical form. -/
theorem Memory.write_wf {m : Memory} (hm : Memory.wf m) {a : Nat} (ha : a < memSize) (b : Byte) :
    Memory.wf (Memory.write m a b) := by
  have hp : (m.filter fun c => c.1 != a).Pairwise fun a b => a.1 < b.1 := hm.1.filter _
  have hc : ∀ c ∈ m.filter (fun c => c.1 != a), c.1 < memSize ∧ c.2 ≠ 0#8 :=
    fun c h => hm.2 c (List.mem_of_mem_filter h)
  unfold Memory.write
  split_ifs with hb
  · exact ⟨hp, hc⟩
  · refine ⟨Memory.insert_pairwise hp (by simp), fun c h => ?_⟩
    rcases (Memory.mem_insert _ _ _).1 h with rfl | h
    · exact ⟨ha, hb⟩
    · exact hc c h

/-- A run of writes in the address space keeps the canonical form. -/
theorem Memory.writeBytes_wf {bs : List Byte} {m : Memory} (hm : Memory.wf m) {a : Nat}
    (ha : a + bs.length ≤ memSize) : Memory.wf (Memory.writeBytes m a bs) := by
  induction bs generalizing m a with
  | nil => exact hm
  | cons b bs ih =>
    simp only [List.length_cons] at ha
    exact ih (Memory.write_wf hm (by omega) b) (by omega)

/-- The empty memory, that of power-on, has the canonical form. -/
theorem Memory.wf_nil : Memory.wf [] := ⟨List.Pairwise.nil, by simp⟩

/-- Two canonical memories that read the same are the same data. -/
theorem Memory.eq_of_read_eq {m m' : Memory} (hm : Memory.wf m) (hm' : Memory.wf m')
    (h : ∀ a, Memory.read m a = Memory.read m' a) : m = m' := by
  induction m generalizing m' with
  | nil =>
    cases m' with
    | nil => rfl
    | cons c m' =>
      have := h c.1
      rw [Memory.read, Memory.read, if_pos rfl] at this
      exact absurd this.symm (hm'.2 c (by simp)).2
  | cons c m ih =>
    cases m' with
    | nil =>
      have := h c.1
      rw [Memory.read, Memory.read, if_pos rfl] at this
      exact absurd this (hm.2 c (by simp)).2
    | cons c' m' =>
      have hp := List.pairwise_cons.1 hm.1
      have hp' := List.pairwise_cons.1 hm'.1
      have below {d : Host.Cell} {l : Memory} (hl : ∀ e ∈ l, d.1 < e.1) {a : Nat} (ha : a ≤ d.1) :
          Memory.read l a = 0#8 := Memory.read_of_unlisted fun e he => by have := hl e he; omega
      have hkey : c.1 = c'.1 := by
        rcases Nat.lt_trichotomy c.1 c'.1 with hlt | heq | hlt
        · have := h c.1
          rw [Memory.read, if_pos rfl, Memory.read, if_neg (by omega), below hp'.1 (by omega)] at this
          exact absurd this (hm.2 c (by simp)).2
        · exact heq
        · have := h c'.1
          rw [Memory.read, if_neg (by omega), below hp.1 (by omega), Memory.read, if_pos rfl] at this
          exact absurd this.symm (hm'.2 c' (by simp)).2
      have hval : c.2 = c'.2 := by
        have := h c.1
        rwa [Memory.read, if_pos rfl, Memory.read, if_pos hkey.symm] at this
      have htail : m = m' := by
        refine ih ⟨hp.2, fun d hd => hm.2 d (by simp [hd])⟩ ⟨hp'.2, fun d hd => hm'.2 d (by simp [hd])⟩ fun a => ?_
        have := h a
        by_cases ha : a = c.1
        · rw [below hp.1 (by omega), below hp'.1 (by omega)]
        · rwa [Memory.read, if_neg (by omega), Memory.read, if_neg (by omega)] at this
      rw [htail, Prod.ext hkey hval]

/-- The range check in plain arithmetic (20_memory.md R53). -/
theorem dataInRange_iff (a n : Nat) : dataInRange a n = true ↔ n = 0 ∨ a + n ≤ memSize := by
  simp [dataInRange]

end Sys2Proof.Machine
end

