-- ==== Sys2Proof/Laws/PerInstr.lean ====
section
/-! SUPPORT. Statements made instruction by instruction: each instruction's word lies in its row of
spec/opcode_table.json. -/

namespace Sys2Proof.Laws

/-! The fixed bits of an assembled word. -/

theorem and_family (h : Nibble) (a b : Addr) : ((h ++ a : Word) &&& (0xF#4 ++ b : Word)) = h ++ (a &&& b) := by
  have e := BitVec.and_append (x₁ := h) (x₂ := 0xF#4) (y₁ := a) (y₂ := b)
  rwa [show (0xF#4 : Nibble) = BitVec.allOnes 4 from rfl, BitVec.and_allOnes] at e

theorem and_drop_x (x : Nibble) (a b : Byte) : ((x ++ a : Addr) &&& (0#4 ++ b : Addr)) = 0#4 ++ (a &&& b) := by
  have e := BitVec.and_append (x₁ := x) (x₂ := 0#4) (y₁ := a) (y₂ := b)
  rwa [BitVec.and_zero] at e

theorem and_drop_y (y n m : Nibble) : ((y ++ n : Byte) &&& (0#4 ++ m : Byte)) = 0#4 ++ (n &&& m) := by
  have e := BitVec.and_append (x₁ := y) (x₂ := 0#4) (y₁ := n) (y₂ := m)
  rwa [BitVec.and_zero] at e

theorem wordNNNOf_and (h : Nibble) (nnn : Addr) : wordNNNOf h nnn &&& 0xF000#16 = wordNNNOf h 0#12 :=
  (and_family h nnn 0x000#12).trans (congrArg (wordNNNOf h) BitVec.and_zero)

theorem wordXNNOf_and (h x : Nibble) (nn : Byte) : wordXNNOf h x nn &&& 0xF000#16 = wordNNNOf h 0#12 :=
  (and_family h (x ++ nn) 0x000#12).trans (congrArg (wordNNNOf h) BitVec.and_zero)

theorem wordXYNOf_and (h x y n : Nibble) : wordXYNOf h x y n &&& 0xF000#16 = wordNNNOf h 0#12 :=
  (and_family h (x ++ (y ++ n)) 0x000#12).trans (congrArg (wordNNNOf h) BitVec.and_zero)

theorem wordXNNOf_and_selector (h x : Nibble) (nn : Byte) :
    wordXNNOf h x nn &&& 0xF0FF#16 = wordXNNOf h 0#4 nn :=
  (and_family h (x ++ nn) 0x0FF#12).trans (congrArg (wordNNNOf h)
    ((and_drop_x x nn 0xFF#8).trans (congrArg (fun b : Byte => (0#4 ++ b : Addr)) BitVec.and_allOnes)))

theorem wordXYNOf_and_selector (h x y n : Nibble) :
    wordXYNOf h x y n &&& 0xF00F#16 = wordXYNOf h 0#4 0#4 n :=
  (and_family h (x ++ (y ++ n)) 0x00F#12).trans (congrArg (wordNNNOf h)
    ((and_drop_x x (y ++ n) 0x0F#8).trans (congrArg (fun b : Byte => (0#4 ++ b : Addr))
      ((and_drop_y y n 0xF#4).trans (congrArg (fun b : Nibble => (0#4 ++ b : Byte)) BitVec.and_allOnes)))))

/-- The `mask` and `match` columns of the instruction's row in spec/opcode_table.json; SHL's match is the one of the
configuration's `SHL_SEL` (30_encoding.md R75). -/
def TableRow.maskAndMatch (c : Config) : Instr → Word × Word
  | .cls => (0xFFFF#16, 0x00E0#16)
  | .ret => (0xFFFF#16, 0x00EE#16)
  | .jp _ => (0xF000#16, 0x1000#16)
  | .call _ => (0xF000#16, 0x2000#16)
  | .seImm _ _ => (0xF000#16, 0x3000#16)
  | .sneImm _ _ => (0xF000#16, 0x4000#16)
  | .seReg _ _ => (0xF00F#16, 0x5000#16)
  | .ldImm _ _ => (0xF000#16, 0x6000#16)
  | .addImm _ _ => (0xF000#16, 0x7000#16)
  | .ldReg _ _ => (0xF00F#16, 0x8000#16)
  | .orReg _ _ => (0xF00F#16, 0x8001#16)
  | .andReg _ _ => (0xF00F#16, 0x8002#16)
  | .xorReg _ _ => (0xF00F#16, 0x8003#16)
  | .addReg _ _ => (0xF00F#16, 0x8004#16)
  | .sub _ _ => (0xF00F#16, 0x8005#16)
  | .shr _ _ => (0xF00F#16, 0x8006#16)
  | .subn _ _ => (0xF00F#16, 0x8007#16)
  | .shl _ _ => (0xF00F#16, match c.shlSel with
    | .low8 => 0x8008#16
    | .lowE => 0x800E#16)
  | .sneReg _ _ => (0xF00F#16, 0x9000#16)
  | .ldI _ => (0xF000#16, 0xA000#16)
  | .jpV0 _ => (0xF000#16, 0xB000#16)
  | .rnd _ _ => (0xF000#16, 0xC000#16)
  | .drw _ _ _ => (0xF000#16, 0xD000#16)
  | .skp _ => (0xF0FF#16, 0xE09E#16)
  | .sknp _ => (0xF0FF#16, 0xE0A1#16)
  | .ldK _ => (0xF0FF#16, 0xF00A#16)
  | .ldVxDt _ => (0xF0FF#16, 0xF007#16)
  | .ldDt _ => (0xF0FF#16, 0xF015#16)
  | .ldSt _ => (0xF0FF#16, 0xF018#16)
  | .addI _ => (0xF0FF#16, 0xF01E#16)
  | .ldF _ => (0xF0FF#16, 0xF029#16)
  | .ldB _ => (0xF0FF#16, 0xF033#16)
  | .ldStore _ => (0xF0FF#16, 0xF055#16)
  | .ldLoad _ => (0xF0FF#16, 0xF065#16)

/-- The instruction's word has the fixed bits of its row, under every configuration (30_encoding.md R72, R73). -/
def TableRow.Statement (i : Instr) : Prop :=
  ∀ c : Config, encode c i &&& (TableRow.maskAndMatch c i).1 = (TableRow.maskAndMatch c i).2

theorem TableRow.cls : TableRow.Statement .cls := fun c => by
  simp only [encode, TableRow.maskAndMatch]; decide
theorem TableRow.ret : TableRow.Statement .ret := fun c => by
  simp only [encode, TableRow.maskAndMatch]; decide
theorem TableRow.jp (nnn : Addr) : TableRow.Statement (.jp nnn) := fun _ => wordNNNOf_and _ nnn
theorem TableRow.call (nnn : Addr) : TableRow.Statement (.call nnn) := fun _ => wordNNNOf_and _ nnn
theorem TableRow.seImm (x : Nibble) (nn : Byte) : TableRow.Statement (.seImm x nn) := fun _ => wordXNNOf_and _ x nn
theorem TableRow.sneImm (x : Nibble) (nn : Byte) : TableRow.Statement (.sneImm x nn) := fun _ => wordXNNOf_and _ x nn
theorem TableRow.seReg (x y : Nibble) : TableRow.Statement (.seReg x y) := fun _ => wordXYNOf_and_selector _ x y _
theorem TableRow.ldImm (x : Nibble) (nn : Byte) : TableRow.Statement (.ldImm x nn) := fun _ => wordXNNOf_and _ x nn
theorem TableRow.addImm (x : Nibble) (nn : Byte) : TableRow.Statement (.addImm x nn) := fun _ => wordXNNOf_and _ x nn
theorem TableRow.ldReg (x y : Nibble) : TableRow.Statement (.ldReg x y) := fun _ => wordXYNOf_and_selector _ x y _
theorem TableRow.orReg (x y : Nibble) : TableRow.Statement (.orReg x y) := fun _ => wordXYNOf_and_selector _ x y _
theorem TableRow.andReg (x y : Nibble) : TableRow.Statement (.andReg x y) := fun _ => wordXYNOf_and_selector _ x y _
theorem TableRow.xorReg (x y : Nibble) : TableRow.Statement (.xorReg x y) := fun _ => wordXYNOf_and_selector _ x y _
theorem TableRow.addReg (x y : Nibble) : TableRow.Statement (.addReg x y) := fun _ => wordXYNOf_and_selector _ x y _
theorem TableRow.sub (x y : Nibble) : TableRow.Statement (.sub x y) := fun _ => wordXYNOf_and_selector _ x y _
theorem TableRow.shr (x y : Nibble) : TableRow.Statement (.shr x y) := fun _ => wordXYNOf_and_selector _ x y _
theorem TableRow.subn (x y : Nibble) : TableRow.Statement (.subn x y) := fun _ => wordXYNOf_and_selector _ x y _
theorem TableRow.shl (x y : Nibble) : TableRow.Statement (.shl x y) := by
  intro c
  refine (wordXYNOf_and_selector _ x y _).trans ?_
  simp only [TableRow.maskAndMatch, shlNibble]
  cases c.shlSel <;> rfl
theorem TableRow.sneReg (x y : Nibble) : TableRow.Statement (.sneReg x y) := fun _ => wordXYNOf_and_selector _ x y _
theorem TableRow.ldI (nnn : Addr) : TableRow.Statement (.ldI nnn) := fun _ => wordNNNOf_and _ nnn
theorem TableRow.jpV0 (nnn : Addr) : TableRow.Statement (.jpV0 nnn) := fun _ => wordNNNOf_and _ nnn
theorem TableRow.rnd (x : Nibble) (nn : Byte) : TableRow.Statement (.rnd x nn) := fun _ => wordXNNOf_and _ x nn
theorem TableRow.drw (x y n : Nibble) : TableRow.Statement (.drw x y n) := fun _ => wordXYNOf_and _ x y n
theorem TableRow.skp (x : Nibble) : TableRow.Statement (.skp x) := fun _ => wordXNNOf_and_selector _ x _
theorem TableRow.sknp (x : Nibble) : TableRow.Statement (.sknp x) := fun _ => wordXNNOf_and_selector _ x _
theorem TableRow.ldK (x : Nibble) : TableRow.Statement (.ldK x) := fun _ => wordXNNOf_and_selector _ x _
theorem TableRow.ldVxDt (x : Nibble) : TableRow.Statement (.ldVxDt x) := fun _ => wordXNNOf_and_selector _ x _
theorem TableRow.ldDt (x : Nibble) : TableRow.Statement (.ldDt x) := fun _ => wordXNNOf_and_selector _ x _
theorem TableRow.ldSt (x : Nibble) : TableRow.Statement (.ldSt x) := fun _ => wordXNNOf_and_selector _ x _
theorem TableRow.addI (x : Nibble) : TableRow.Statement (.addI x) := fun _ => wordXNNOf_and_selector _ x _
theorem TableRow.ldF (x : Nibble) : TableRow.Statement (.ldF x) := fun _ => wordXNNOf_and_selector _ x _
theorem TableRow.ldB (x : Nibble) : TableRow.Statement (.ldB x) := fun _ => wordXNNOf_and_selector _ x _
theorem TableRow.ldStore (x : Nibble) : TableRow.Statement (.ldStore x) := fun _ => wordXNNOf_and_selector _ x _
theorem TableRow.ldLoad (x : Nibble) : TableRow.Statement (.ldLoad x) := fun _ => wordXNNOf_and_selector _ x _

end Sys2Proof.Laws
end

