-- ==== Sys2Proof/Tests/Slice0.lean ====
section
/-! SUPPORT. The model's own tests. Expected results are those of spec/95_test_vectors.md (the vector is named in the
test's comment) or of the rule cited. Then one witness for each statement that has hypotheses. -/

namespace Sys2Proof.Tests

open Sys2Proof.Machine

/-- The next state, if there is one. -/
def nextOf : Host.Outcome State Fault Refusal → Option State
  | .next t => some t
  | .fault _ => none
  | .refused _ => none

/-- Running, with the word `w` at address `a` and PC there; nothing else differs from power-on. -/
def placedAt (a : Nat) (w : Word) : State :=
  { State.reset with
    state  := .running
    pc     := BitVec.ofNat 16 a
    memory := Memory.writeBytes [] a [(bytesOfWord w).1, (bytesOfWord w).2] }

/-- `placedAt` at the default entry. -/
def placed (w : Word) : State := placedAt 0x200 w

/-- The state changed into one of another configuration. -/
def withCfg (s : State) (f : Config → Config) : State := { s with cfg := f s.cfg }

/-- The extension enabled. -/
def fx (s : State) : State := withCfg s fun c => { c with canonicalFx := true }

/-- One step from `s`, seen through `f`. -/
def sees {α : Type} (s : State) (f : State → α) : Option α := (nextOf (step s)).map f

/-- One host operation from `s`, seen through `f`. -/
def seesOp {α : Type} (op : HostOp) (s : State) (f : State → α) : Option α := (nextOf (hostOp op s)).map f

/-- Refused, and by this name. -/
def refusedBy (o : Host.Outcome State Fault Refusal) (r : Refusal) : Bool :=
  match o with
  | .next _ => false
  | .fault _ => false
  | .refused r' => r' == r

/-! ### Well-formedness: each check refuses an ill-formed term (00_scope.md R7; 70_reset_and_hazards.md R246) -/

theorem test_default_legal : Config.default.legal = true ∧ tableConfig.legal = true := by decide
theorem test_stackDepth_refused :
    (Config.legal { Config.default with stackDepth := 11 }, Config.legal { Config.default with stackDepth := 12 },
      Config.legal { Config.default with stackDepth := 16 }, Config.legal { Config.default with stackDepth := 17 })
      = (false, true, true, false) := by decide
/-- T9.6 -/
theorem test_entry_refused :
    (Config.legal { Config.default with entry := 79 }, Config.legal { Config.default with entry := 80 },
      Config.legal { Config.default with entry := 4096 }, Config.legal { Config.default with entry := 4097 })
      = (false, true, true, false) := by decide
theorem test_dispW_refused : Config.legal { Config.default with dispW := 0 } = false := by decide
theorem test_dispH_refused : Config.legal { Config.default with dispH := 0 } = false := by decide
theorem test_extension_not_wellFormed : Instr.wellFormed .default (.ldB 3) = false ∧
    Instr.wellFormed tableConfig (.ldB 3) = true ∧ Instr.wellFormed .default (.ldK 3) = true := by decide
theorem test_illegal_configuration_refused :
    refusedBy (step (withCfg State.reset fun c => { c with stackDepth := 20 })) .illegalConfiguration = true := by
  decide
/-- T6.14 -/
theorem test_key_index_refused : refusedBy (hostOp (.keyDown 16) (placed 0)) .keyIndexRefused = true ∧
    refusedBy (hostOp (.keyUp 16) (placed 0)) .keyIndexRefused = true := by decide

/-! ### Decoding: words written out from the encodings of 30_encoding.md R72 -/

theorem test_decode_cls : decodeWord .default 0x00E0#16 = .ok .cls := by decide
theorem test_decode_ret : decodeWord .default 0x00EE#16 = .ok .ret := by decide
theorem test_decode_jp : decodeWord .default 0x1208#16 = .ok (.jp 0x208) := by decide
theorem test_decode_call : decodeWord .default 0x2300#16 = .ok (.call 0x300) := by decide
theorem test_decode_seImm : decodeWord .default 0x3342#16 = .ok (.seImm 3 0x42) := by decide
theorem test_decode_sneImm : decodeWord .default 0x4001#16 = .ok (.sneImm 0 1) := by decide
theorem test_decode_seReg : decodeWord .default 0x5120#16 = .ok (.seReg 1 2) := by decide
theorem test_decode_ldImm : decodeWord .default 0x6A5C#16 = .ok (.ldImm 0xA 0x5C) := by decide
theorem test_decode_addImm : decodeWord .default 0x7220#16 = .ok (.addImm 2 0x20) := by decide
theorem test_decode_ldReg : decodeWord .default 0x8010#16 = .ok (.ldReg 0 1) := by decide
theorem test_decode_orReg : decodeWord .default 0x8011#16 = .ok (.orReg 0 1) := by decide
theorem test_decode_andReg : decodeWord .default 0x8012#16 = .ok (.andReg 0 1) := by decide
theorem test_decode_xorReg : decodeWord .default 0x8013#16 = .ok (.xorReg 0 1) := by decide
theorem test_decode_addReg : decodeWord .default 0x8F14#16 = .ok (.addReg 0xF 1) := by decide
theorem test_decode_sub : decodeWord .default 0x8015#16 = .ok (.sub 0 1) := by decide
theorem test_decode_shr : decodeWord .default 0x8476#16 = .ok (.shr 4 7) := by decide
theorem test_decode_subn : decodeWord .default 0x80F7#16 = .ok (.subn 0 0xF) := by decide
theorem test_decode_shl : decodeWord .default 0x8258#16 = .ok (.shl 2 5) := by decide
theorem test_decode_sneReg : decodeWord .default 0x9120#16 = .ok (.sneReg 1 2) := by decide
theorem test_decode_ldI : decodeWord .default 0xA2F0#16 = .ok (.ldI 0x2F0) := by decide
theorem test_decode_jpV0 : decodeWord .default 0xB300#16 = .ok (.jpV0 0x300) := by decide
theorem test_decode_rnd : decodeWord .default 0xC30F#16 = .ok (.rnd 3 0x0F) := by decide
theorem test_decode_drw : decodeWord .default 0xD675#16 = .ok (.drw 6 7 5) := by decide
theorem test_decode_skp : decodeWord .default 0xE59E#16 = .ok (.skp 5) := by decide
theorem test_decode_sknp : decodeWord .default 0xE5A1#16 = .ok (.sknp 5) := by decide
theorem test_decode_ldK : decodeWord .default 0xF30A#16 = .ok (.ldK 3) := by decide
theorem test_decode_ldVxDt : decodeWord tableConfig 0xF207#16 = .ok (.ldVxDt 2) := by decide
theorem test_decode_ldDt : decodeWord tableConfig 0xF215#16 = .ok (.ldDt 2) := by decide
theorem test_decode_ldSt : decodeWord tableConfig 0xF118#16 = .ok (.ldSt 1) := by decide
theorem test_decode_addI : decodeWord tableConfig 0xF01E#16 = .ok (.addI 0) := by decide
theorem test_decode_ldF : decodeWord tableConfig 0xF429#16 = .ok (.ldF 4) := by decide
theorem test_decode_ldB : decodeWord tableConfig 0xF033#16 = .ok (.ldB 0) := by decide
theorem test_decode_ldStore : decodeWord tableConfig 0xF155#16 = .ok (.ldStore 1) := by decide
theorem test_decode_ldLoad : decodeWord tableConfig 0xF165#16 = .ok (.ldLoad 1) := by decide
/-- T4.33, T2.7, T2.8: exactly one of 8XY8 and 8XYE is the shift. -/
theorem test_decode_shl_selector :
    decodeWord { Config.default with shlSel := .lowE } 0x822E#16 = .ok (.shl 2 2) ∧
    decodeWord { Config.default with shlSel := .lowE } 0x8018#16 = .error .aluSelector ∧
    decodeWord .default 0x801E#16 = .error .aluSelector := by decide
/-- T2.1 to T2.6, T2.9 -/
theorem test_decode_unrecognized :
    [0x0000#16, 0x0123#16, 0x00E1#16, 0x00EF#16, 0x0FFF#16, 0x5121#16, 0x9121#16, 0x8009#16, 0x800F#16, 0xE09F#16,
      0xE0A0#16, 0xE000#16].all (fun w => !recognized tableConfig w) = true := by decide
/-- T2.10, T2.11 -/
theorem test_decode_fx_unrecognized :
    [0xF007#16, 0xF015#16, 0xF033#16, 0xF065#16, 0xF0FF#16].all (fun w => !recognized .default w) = true ∧
    recognized tableConfig 0xF0FF#16 = false := by decide
theorem test_decode_truncated : decode .default [] = .error .truncated ∧ decode .default [0x00#8] = .error .truncated := by
  decide
/-- The first byte is the high byte (20_memory.md R52), and the bytes that follow are left. -/
theorem test_decode_bytes : decode .default [0x6A#8, 0x5C#8, 0x12#8] = .ok (.ldImm 0xA 0x5C, [0x12#8]) := by decide
theorem test_decodeTableWord : decodeTableWord 16 0xF033 = some (.ldB 0) ∧ decodeTableWord 16 0x5121 = none := by
  decide

/-! ### One step: the vectors of spec/95_test_vectors.md -/

/-- T1.1 -/
theorem test_fetch_big_endian :
    sees (placed 0x6A5C) (fun t => (t.reg 0xA, t.pc)) = some (0x5C, 0x202) := by decide
/-- T1.2 -/
theorem test_fetch_last_legal :
    sees (placedAt 0xFFE 0x1200) (·.pc) = some 0x200 := by decide
/-- T1.3 -/
theorem test_fetch_out_of_range :
    sees (placedAt 0xFFF 0) (fun t => (t.fault, t.state, t.pc)) = some (some .pcOutOfRange, .halted, 0xFFF) := by
  decide
/-- T1.5 -/
theorem test_fetch_odd :
    sees { placed 0 with pc := 0x201, memory := Memory.writeBytes [] 0x200 [0x12, 0x34, 0x56, 0x78] } (·.pc) = some 0x203 := by
  decide
/-- T1.6 -/
theorem test_paused_cycle :
    nextOf (step { placed 0x6005 with state := .paused }) = some { placed 0x6005 with state := .paused } := by decide
/-- T1.8 -/
theorem test_wait_cycle :
    nextOf (step { placed 0x6005 with wait := some 3 }) = some { placed 0x6005 with wait := some 3 } := by decide
/-- T2.4 -/
theorem test_unrecognized_noop :
    nextOf (step (placed 0x5121)) = some { placed 0x5121 with pc := 0x202 } := by decide
/-- T2.7 -/
theorem test_shl_other_selector :
    sees ((placed 0x801E).setReg 0 0x81) (fun t => (t.reg 0, t.reg 0xF, t.pc)) = some (0x81, 0, 0x202) := by decide
/-- T3.1 -/
theorem test_jp :
    nextOf (step (placed 0x1208)) = some { placed 0x1208 with pc := 0x208 } := by decide
/-- T3.6 -/
theorem test_call_last_slot :
    sees { placedAt 0x204 0x2300 with stack := List.replicate 15 0x202 } (fun t => (t.stackEntry 15, t.sp, t.pc)) = some (some 0x206, 16, 0x300) := by
  decide
/-- T3.8 -/
theorem test_call_overflow :
    sees { withCfg (placedAt 0x204 0x2300) (fun c => { c with stackDepth := 12 }) with stack := List.replicate 12 0x202 }
      (fun t => (t.fault, t.state, t.pc, t.sp)) = some (some .stackOverflow, .halted, 0x204, 12) := by decide
/-- T3.9 -/
theorem test_ret :
    sees { placedAt 0x300 0x00EE with stack := [0x206] } (fun t => (t.pc, t.sp)) = some (0x206, 0) := by decide
/-- T3.11 -/
theorem test_ret_underflow :
    sees (placedAt 0x300 0x00EE) (fun t => (t.fault, t.pc, t.sp)) = some (some .stackUnderflow, 0x300, 0) := by decide
/-- T3.12, T3.13 -/
theorem test_se_imm :
    (sees ((placed 0x3342).setReg 3 0x42) (·.pc), sees ((placed 0x3342).setReg 3 0x41) (·.pc)) = (some 0x204, some 0x202) := by
  decide
/-- T3.15, T3.16 -/
theorem test_sne_imm :
    (sees (placed 0x4001) (·.pc), sees ((placed 0x4001).setReg 0 1) (·.pc)) = (some 0x204, some 0x202) := by decide
/-- T3.17 -/
theorem test_se_reg :
    sees (((placed 0x5120).setReg 1 7).setReg 2 7) (·.pc) = some 0x204 := by decide
/-- T3.19, T3.20 -/
theorem test_sne_reg :
    (sees (((placed 0x9120).setReg 1 7).setReg 2 8) (·.pc), sees ((placed 0x9330).setReg 3 5) (·.pc)) = (some 0x204, some 0x202) := by
  decide
/-- T3.22 -/
theorem test_jp_v0 :
    sees ((placed 0xBFFF).setReg 0 0xFF) (·.pc) = some 0x10FE := by decide
/-- T3.26 -/
theorem test_jp_v0_ignores_x :
    sees ((placed 0xB500).setReg 5 0x10) (·.pc) = some 0x500 := by decide
/-- T4.1 -/
theorem test_ld_imm :
    sees (placed 0x6FFF) (·.reg 0xF) = some 0xFF := by decide
/-- T4.2 -/
theorem test_add_imm_no_flag :
    sees (((placed 0x7220).setReg 2 0xF0).setReg 0xF 0x55) (fun t => (t.reg 2, t.reg 0xF)) = some (0x10, 0x55) := by
  decide
/-- T4.5 -/
theorem test_ld_reg :
    sees ((placed 0x8010).setReg 1 0x33) (·.reg 0) = some 0x33 := by decide
/-- T4.6 -/
theorem test_or :
    sees ((((placed 0x8011).setReg 0 0x0F).setReg 1 0xF0).setReg 0xF 0x77) (fun t => (t.reg 0, t.reg 0xF)) = some (0xFF, 0x77) := by
  decide
/-- T4.7 -/
theorem test_and :
    sees ((((placed 0x8012).setReg 0 0x3C).setReg 1 0x0F).setReg 0xF 0x77) (fun t => (t.reg 0, t.reg 0xF)) = some (0x0C, 0x77) := by
  decide
/-- T4.8 -/
theorem test_xor :
    sees ((((placed 0x8013).setReg 0 0xFF).setReg 1 0x0F).setReg 0xF 0x77) (fun t => (t.reg 0, t.reg 0xF)) = some (0xF0, 0x77) := by
  decide
/-- T4.10, T4.11 -/
theorem test_add_carry_boundary :
    (sees (((placed 0x8014).setReg 0 0xFF).setReg 1 1) (fun t => (t.reg 0, t.reg 0xF)),
      sees (((placed 0x8014).setReg 0 0xFE).setReg 1 1) (fun t => (t.reg 0, t.reg 0xF))) = (some (0, 1), some (0xFF, 0)) := by
  decide
/-- T4.13 -/
theorem test_add_x_is_f :
    (sees (((placed 0x8F14).setReg 0xF 0xC8).setReg 1 0x64) (·.reg 0xF),
      sees (withCfg (((placed 0x8F14).setReg 0xF 0xC8).setReg 1 0x64) fun c => { c with vfOrder := .resultThenFlag }) (·.reg 0xF))
      = (some 0x2C, some 0x01) := by decide
/-- E3: V0 = 5, V1 = 7 -/
theorem test_sub_borrow :
    sees (((placed 0x8015).setReg 0 5).setReg 1 7) (fun t => (t.reg 0, t.reg 0xF)) = some (0xFE, 0) := by decide
/-- E3: operands are captured before the flag is written -/
theorem test_sub_y_is_f :
    sees (((placed 0x80F5).setReg 0 3).setReg 0xF 2) (fun t => (t.reg 0, t.reg 0xF)) = some (1, 1) := by decide
/-- T4.18 -/
theorem test_shr_ignores_y :
    sees (((placed 0x8476).setReg 4 5).setReg 7 0xFF) (fun t => (t.reg 4, t.reg 0xF)) = some (2, 1) := by decide
/-- T4.22 -/
theorem test_shr_x_is_f :
    (sees ((placed 0x8F06).setReg 0xF 2) (·.reg 0xF),
      sees (withCfg ((placed 0x8F06).setReg 0xF 2) fun c => { c with vfOrder := .resultThenFlag }) (·.reg 0xF))
      = (some 1, some 0) := by decide
/-- T4.23 -/
theorem test_subn :
    sees (((placed 0x8017).setReg 0 7).setReg 1 5) (fun t => (t.reg 0, t.reg 0xF)) = some (0xFE, 0) := by decide
/-- T4.25 -/
theorem test_subn_equal :
    sees (((placed 0x8017).setReg 0 9).setReg 1 9) (fun t => (t.reg 0, t.reg 0xF)) = some (0, 1) := by decide
/-- T4.31 -/
theorem test_shl :
    sees ((placed 0x8258).setReg 2 0xFF) (fun t => (t.reg 2, t.reg 0xF)) = some (0xFE, 1) := by decide
/-- T4.32 -/
theorem test_shl_x_is_f :
    (sees ((placed 0x8FF8).setReg 0xF 0x81) (·.reg 0xF),
      sees (withCfg ((placed 0x8FF8).setReg 0xF 0x81) fun c => { c with vfOrder := .resultThenFlag }) (·.reg 0xF))
      = (some 2, some 1) := by decide
/-- T4.35 -/
theorem test_ld_i :
    sees (placed 0xAFFF) (·.i) = some 0x0FFF := by decide
/-- 42_register_alu.md R133: the next draw, masked, and one draw for each execution (T4.39). -/
theorem test_rnd : sees (placed 0xC30F) (fun t => (t.reg 3, t.draws)) = some (Config.randomByte 0 &&& 0x0F, 1) := rfl
/-- T5.1 -/
theorem test_cls :
    sees { placed 0x00E0 with fb := [0, 5, 2047] } (fun t => (t.fb, t.pc)) = some ([], 0x202) := by decide
/-- T5.3, both edges: glyph 0's first row at column 62. -/
def edgeDraw : State :=
  { (placed 0xD011).setReg 0 62 with memory := Memory.writeBytes (placed 0xD011).memory 0 [0xF0] }
/-- T5.2 with the font at its place, T5.3 with both edges, T5.16. -/
theorem test_drw :
    sees { placed 0xD015 with memory := Memory.writeBytes (placed 0xD015).memory 0 [0xF0, 0x90, 0x90, 0x90, 0xF0] }
      (fun t => (t.fb, t.reg 0xF)) =
      some ([0, 1, 2, 3, 64, 67, 128, 131, 192, 195, 256, 257, 258, 259], 0) ∧
    (sees edgeDraw (·.fb), sees (withCfg edgeDraw fun c => { c with hEdge := .clip }) (·.fb))
      = (some [0, 1, 62, 63], some [62, 63]) ∧
    sees { withCfg (placed 0xD011) (fun c => { c with dispW := 4 }) with
        i := 0x300, memory := Memory.writeBytes (placed 0xD011).memory 0x300 [0x88] }
      (fun t => (t.fb, t.reg 0xF)) = some ([], 1) := by decide
/-- T6.1, T6.5 -/
theorem test_skp :
    (sees { (placed 0xE59E).setReg 5 0xA with key := (placed 0).key.set 10 true } (·.pc),
      sees ((placed 0xE59E).setReg 5 0x10) (fun t => (t.fault, t.pc, t.state)))
      = (some 0x204, some (some .keyIndexOutOfRange, 0x200, .halted)) := by decide
/-- T6.4, T6.6 -/
theorem test_sknp :
    (sees { (placed 0xE5A1).setReg 5 0xA with key := (placed 0).key.set 10 true } (·.pc),
      sees ((placed 0xE5A1).setReg 5 0xFF) (·.fault)) = (some 0x202, some (some .keyIndexOutOfRange)) := by decide
/-- T6.8, T6.13 -/
theorem test_ld_k :
    (sees (placed 0xF30A) (fun t => (t.wait, t.pc)),
      sees (withCfg (placed 0xF30A) fun c => { c with fx0aMode := .noop }) (fun t => (t.wait, t.pc)))
      = (some (some 3, 0x202), some (none, 0x202)) := by decide
/-- T7.1 -/
theorem test_ld_vx_dt :
    sees { fx (placed 0xF207) with dt := 0x3C } (·.reg 2) = some 0x3C := by decide
/-- T7.2 -/
theorem test_ld_dt :
    sees (fx ((placed 0xF215).setReg 2 0x3C)) (·.dt) = some 0x3C := by decide
/-- T7.3 -/
theorem test_ld_st :
    sees (fx ((placed 0xF118).setReg 1 2)) (fun t => (t.st, t.tone)) = some (2, true) := by decide
/-- T7.4 -/
theorem test_add_i :
    sees { fx ((placed 0xF01E).setReg 0 3) with i := 0x0FFE } (fun t => (t.i, t.reg 0xF)) = some (0x1001, 0) := by
  decide
/-- T7.7 -/
theorem test_ld_f :
    sees (fx ((placed 0xF429).setReg 4 0x1B)) (·.i) = some 0x0037 := by decide
/-- T7.10, T7.11 -/
theorem test_ld_b :
    (sees { fx ((placed 0xF033).setReg 0 0xFF) with i := 0xFFD } (fun t => [0xFFD, 0xFFE, 0xFFF].map (Memory.read t.memory)),
      sees { fx ((placed 0xF033).setReg 0 0xFF) with i := 0xFFE } (fun t => (t.fault, Memory.read t.memory 0xFFE)))
      = (some [2, 5, 5], some (some .memOutOfRange, 0)) := by decide
/-- T7.12 -/
theorem test_ld_store :
    sees { fx (((placed 0xF155).setReg 0 1).setReg 1 2) with i := 0x300 }
      (fun t => ([0x2FF, 0x300, 0x301, 0x302].map (Memory.read t.memory), t.i)) = some ([0, 1, 2, 0], 0x300) := by
  decide
/-- T7.14 -/
theorem test_ld_store_out_of_range :
    nextOf (step { fx (placed 0xFF55) with i := 0xFF1 }) =
      some { fx (placed 0xFF55) with i := 0xFF1, fault := some .memOutOfRange, state := .halted } := by decide
/-- T7.15 -/
theorem test_ld_load :
    sees { fx (placed 0xF165) with i := 0x300, memory := Memory.writeBytes (placed 0xF165).memory 0x300 [1, 2, 3] }
      (fun t => (t.reg 0, t.reg 1, t.reg 2)) = some (1, 2, 0) := by decide

/-! ### Host operations -/

/-- T8.1, T8.2 -/
theorem test_tick :
    (seesOp .tick { placed 0 with dt := 2, st := 1 } (fun t => (t.dt, t.st, t.tone)), seesOp .tick (placed 0) (fun t => (t.dt, t.st)))
      = (some (1, 0, false), some (0, 0)) := by decide
/-- T8.4 -/
theorem test_tick_paused :
    seesOp .tick { placed 0 with state := .paused, dt := 5 } (·.dt) = some 5 := by decide
/-- T6.15 -/
theorem test_keyDown_ends_wait :
    seesOp (.keyDown 7) { placed 0 with wait := some 3, key := (placed 0).key.set 7 true } (fun t => (t.reg 3, t.wait)) =
      some (7, none) := by decide
/-- T6.11 -/
theorem test_keyDown_paused :
    seesOp (.keyDown 9) { placed 0 with wait := some 3, state := .paused } (fun t => (t.keyFlag 9, t.wait, t.reg 3)) =
      some (some true, some 3, 0) := by decide
/-- T8.11 -/
theorem test_keyDown_halted :
    seesOp (.keyDown 3) { placed 0 with state := .halted } (·.keyFlag 3) = some (some false) := by decide
/-- T8.6, T8.7, T8.8, T8.9 -/
theorem test_pause_and_quit :
    (seesOp .togglePause (placed 0) (·.state), seesOp .togglePause { placed 0 with state := .paused } (·.state),
      seesOp .togglePause { placed 0 with state := .halted } (·.state), seesOp .quit (placed 0) (fun t => (t.state, t.fault)))
      = (some .paused, some .running, some .halted, some (.halted, none)) := by decide
/-- T9.1 -/
theorem test_load :
    seesOp (.load [0x60, 0x05]) State.reset (fun t => ([0x19, 0x1A, 0x1B, 0x1C, 0x1D, 0x200, 0x201].map (Memory.read t.memory),
      t.pc, t.sp, t.state, t.loadResult))
      = some ([0xF0, 0x80, 0xF0, 0x10, 0xF0, 0x60, 0x05], 0x200, 0, .running, some .loaded) := by
  decide +kernel
/-- T8.12, T9.3 -/
theorem test_load_after_fault :
    seesOp (.load [0x00, 0xE0]) { placed 0 with state := .halted, fault := some .stackUnderflow, wait := some 2, stack := [1, 2, 3] }
      (fun t => (t.state, t.fault, t.wait, t.sp, t.pc)) = some (.running, none, none, 0, 0x200) := by decide
/-- T9.8 -/
theorem test_load_too_large :
    seesOp (.load [0]) (withCfg State.reset fun c => { c with entry := 0x1000 }) (fun t => (t.loadResult, t.state)) =
      some (some .romTooLarge, .noMachine) := by decide
/-- log entry 6: a listed operation is taken first -/
theorem test_inputs :
    sees { placed 0x6005 with inputs := [.tick, .quit], dt := 9 } (fun t => (t.dt, t.pc, t.inputs)) = some (8, 0x200, [.quit]) := by
  decide
/-- 60_exceptions.md R228 -/
theorem test_trace :
    (cycleTrace (placed 0x6005), cycleTrace (placed 0x00EE)) = (some { pc0 := 0x200, word := 0x6005 }, none) := by
  decide
/-- log entry 15 -/
theorem test_withFetchWord :
    sees (State.reset.withFetchWord 16 0xF229) (fun t => (t.i, t.pc, t.state)) = some (0, 2, .running) := by decide
/-- Log entry 21: with every sprite bit on a lit cell, the second of two draws collides with nothing. -/
theorem test_double_draw_on_lit_cells :
    sees { placed 0xD011 with fb := [0, 1, 2, 3], memory := Memory.writeBytes (placed 0xD011).memory 0 [0xF0] }
      (fun t => (t.fb, t.reg 0xF, sees { t with pc := 0x200 } (fun u => (u.fb, u.reg 0xF))))
      = some ([], 1, some ([0, 1, 2, 3], 0)) := by decide

/-! ### Witnesses: the hypotheses of each statement that has some, met together, clause by clause at a boundary -/

/-- The instruction at PC, from the word stored there. -/
theorem fetches {s : State} {i : Instr} (h : s.pc.toNat + 1 < memSize ∧
    decode s.cfg [Memory.read s.memory s.pc.toNat, Memory.read s.memory (s.pc.toNat + 1)] = .ok (i, [])) :
    s.FetchesInstr i := h

theorem witness_DecodeOfEncode :
    Instr.wellFormed .default (.jp 0xFFF) = true ∧ Instr.wellFormed tableConfig (.ldLoad 0xF) = true := by decide
theorem witness_EncodeOfDecode : decodeWord .default 0xFF0A#16 = .ok (.ldK 0xF) := by decide
theorem witness_UnrecognizedWordsExactly : (decodeWord .default 0x0FFF#16 = .error .zeroFamily ∧
    decodeWord .default 0x1000#16 = .ok (.jp 0)) ∧ tableConfig.canonicalFx = true ∧
    decodeWord tableConfig 0xFF64#16 = .error .fxSelector := by decide
theorem witness_StepRunsDecodedInstruction : (placedAt 0xFFE 0x1200).FetchesInstr (.jp 0x200) ∧
    (placedAt 0xFFE 0x1200).cfg.legal = true ∧ (placedAt 0xFFE 0x1200).state = .running ∧
    (placedAt 0xFFE 0x1200).wait = none ∧ (placedAt 0xFFE 0x1200).inputs = [] :=
  ⟨fetches (by decide), by decide, rfl, rfl, rfl⟩
theorem witness_StepRunsDecodedInstruction_listed :
    State.FetchesInstr { placed 0x00E0 with inputs := [.cycle, .tick] } .cls ∧ (placed 0x00E0).cfg.legal = true ∧
    (placed 0x00E0).state = .running ∧ (placed 0x00E0).wait = none ∧
    State.inputs { placed 0x00E0 with inputs := [.cycle, .tick] } = .cycle :: [.tick] :=
  ⟨fetches (by decide), by decide, rfl, rfl, rfl⟩
theorem witness_UnrecognizedOpcodeIsNoOp : (placedAt 0xFFE 0x0FFF).cycleEnabled = true ∧
    (placedAt 0xFFE 0x0FFF).pc.toNat + 1 < 4096 ∧
    decode (placedAt 0xFFE 0x0FFF).cfg [Memory.read (placedAt 0xFFE 0x0FFF).memory (placedAt 0xFFE 0x0FFF).pc.toNat,
      Memory.read (placedAt 0xFFE 0x0FFF).memory ((placedAt 0xFFE 0x0FFF).pc.toNat + 1)] = .error .zeroFamily := by
  decide
theorem witness_FetchIsBigEndianOrFaults :
    ((placedAt 0xFFF 0).cycleEnabled = true ∧ 4096 ≤ (placedAt 0xFFF 0).pc.toNat + 1) ∧
    ((placedAt 0xFFE 0x1200).cycleEnabled = true ∧ (placedAt 0xFFE 0x1200).pc.toNat + 1 < 4096) := by decide
theorem witness_CycleGate : State.state { placed 0 with state := .paused } ≠ .running ∧
    State.wait { placed 0 with wait := some 0xF } ≠ none ∧ (placed 0).state = .running ∧ (placed 0).wait = none := by
  decide
theorem witness_IllegalConfigurationRefused :
    refusedBy (step (withCfg (placed 0) fun c => { c with entry := 79 })) .illegalConfiguration = true ∧
    refusedBy (step (withCfg (placed 0) fun c => { c with entry := 80, stackDepth := 12 })) .illegalConfiguration
      = false := by decide
theorem witness_StepTakesListedOperation : ((placed 0).cfg.legal = true ∧ (placed 0).inputs = []) ∧
    State.inputs { placed 0 with inputs := [.keyDown 15] } = .keyDown 15 :: [] := by decide
theorem witness_PlacedWordRuns : decodeTableWord 16 0xF265 = some (.ldLoad 2) := by decide
/-- A running machine meets the invariant and takes a step. -/
theorem witness_StepKeepsInvariant : (placed 0x00E0).Inv ∧ (nextOf (step (placed 0x00E0))).isSome = true :=
  ⟨⟨by decide, by decide, by decide, by decide, by decide, by decide, by decide⟩, by decide⟩
theorem witness_StepKeepsBaseInvariant : State.BaseInv { placed 0xAFFF with i := 0xFFF } ∧
    (nextOf (step { placed 0xAFFF with i := 0xFFF })).isSome = true :=
  ⟨⟨by decide, by decide, by decide, by decide⟩, by decide⟩
theorem witness_OnlyLoadWritesMemoryInBaseSet : (placed 0xF055).cfg.canonicalFx = false ∧
    (nextOf (step (placed 0xF055))).isSome = true ∧ (∀ rom, (nextOp (placed 0xF055)).1 ≠ .load rom) :=
  ⟨by decide, by decide, fun rom h => by cases h⟩
theorem witness_StepKeepsConfiguration : (nextOf (step (placed 0xF055))).isSome = true := by decide
theorem witness_FaultsArePrecise : (placed 0x00EE).fault = none ∧
    (nextOf (cycle (placed 0x00EE))).map (·.fault) = some (some .stackUnderflow) := by decide

/-- Full and 12 deep, about to call. -/
def fullStack : State := { withCfg (placed 0x2FFF) (fun c => { c with stackDepth := 12 }) with stack := List.replicate 12 0 }
/-- About to draw one row at I. -/
def drawAt (a : Word) : State := { placed 0xD011 with i := a }
/-- What the statement about faults asks of the state before the cycle. -/
abbrev CanFault (s : State) : Prop := s.cycleEnabled = true ∧ s.fault = none ∧ s.sp ≤ s.cfg.stackDepth
/-- About to use VX as a key index. -/
def keyAt (v : Byte) : State := (placed 0xE5A1).setReg 5 v

theorem witness_FaultsExactlyAsListed_overflow : CanFault fullStack ∧ (nextOf (cycle fullStack)).map (·.fault) = some (some .stackOverflow) ∧
    fullStack.FetchesInstr (.call 0xFFF) ∧ fullStack.sp = fullStack.cfg.stackDepth :=
  ⟨by decide, by decide, fetches (by decide), by decide⟩
theorem witness_FaultsExactlyAsListed_underflow : CanFault (placed 0x00EE) ∧
    (nextOf (cycle (placed 0x00EE))).map (·.fault) = some (some .stackUnderflow) ∧
    (placed 0x00EE).FetchesInstr .ret ∧ (placed 0x00EE).sp = 0 :=
  ⟨by decide, by decide, fetches (by decide), by decide⟩
theorem witness_FaultsExactlyAsListed_pc : CanFault (placedAt 0xFFF 0) ∧
    (nextOf (cycle (placedAt 0xFFF 0))).map (·.fault) = some (some .pcOutOfRange) ∧
    4096 ≤ (placedAt 0xFFF 0).pc.toNat + 1 := by decide
theorem witness_FaultsExactlyAsListed_memory : CanFault (drawAt 0x1000) ∧ CanFault (drawAt 0x0FFF) ∧ (drawAt 0x1000).FetchesInstr (.drw 0 1 1) ∧
    4096 ≤ (drawAt 0x1000).i.toNat + 1 - 1 ∧
    (nextOf (cycle (drawAt 0x1000))).map (·.fault) = some (some .memOutOfRange) ∧
    (nextOf (cycle (drawAt 0x0FFF))).map (·.fault) = some none ∧
    (CanFault { fx (placed 0xF055) with i := 0x1000 } ∧
      State.FetchesInstr { fx (placed 0xF055) with i := 0x1000 } (.ldStore 0)) ∧
    (CanFault { fx (placed 0xFF65) with i := 0x0FF1 } ∧
      State.FetchesInstr { fx (placed 0xFF65) with i := 0x0FF1 } (.ldLoad 0xF)) ∧
    (CanFault { fx (placed 0xF033) with i := 0x0FFE } ∧
      State.FetchesInstr { fx (placed 0xF033) with i := 0x0FFE } (.ldB 0)) :=
  ⟨by decide, by decide, fetches (by decide), by decide, by decide, by decide, ⟨by decide, fetches (by decide)⟩,
    ⟨by decide, fetches (by decide)⟩, ⟨by decide, fetches (by decide)⟩⟩
theorem witness_FaultsExactlyAsListed_key : CanFault (keyAt 16) ∧ CanFault (keyAt 15) ∧ (keyAt 16).FetchesInstr (.sknp 5) ∧ 15 < ((keyAt 16).reg 5).toNat ∧
    (nextOf (cycle (keyAt 16))).map (·.fault) = some (some .keyIndexOutOfRange) ∧
    (nextOf (cycle (keyAt 15))).map (·.fault) = some none :=
  ⟨by decide, by decide, fetches (by decide), by decide, by decide, by decide⟩

/-- A host operation other than Cycle, and a gated Cycle, that answer a next state. -/
theorem witness_FaultsExactlyAsListed_otherOperation : (HostOp.keyDown 15 ≠ .cycle ∧
    (nextOf (hostOp (.keyDown 15) (placed 0))).isSome = true) ∧
    (State.cycleEnabled { placed 0x00EE with state := .paused } = false ∧
      (nextOf (hostOp .cycle { placed 0x00EE with state := .paused })).isSome = true) := by decide

theorem witness_CallPushesReturnAddress :
    State.sp { placed 0 with stack := List.replicate 15 0 } < State.reset.cfg.stackDepth ∧
    State.sp { placed 0 with stack := List.replicate 16 0 } = State.reset.cfg.stackDepth := by decide
theorem witness_ReturnPopsReturnAddress : (State.sp { placed 0 with stack := [0xFFFF] } = 0 + 1 ∧
    State.stackEntry { placed 0 with stack := [0xFFFF] } 0 = some 0xFFFF) ∧ (placed 0).sp = 0 := by decide
theorem witness_CallThenReturnRestores :
    State.sp { placed 0 with stack := List.replicate 15 0 } < State.reset.cfg.stackDepth := by decide
theorem witness_DrawXorsSprite : (1 ≤ (drawAt 0xFFF).cfg.dispW ∧ 1 ≤ (drawAt 0xFFF).cfg.dispH ∧
    (drawAt 0xFFF).i.toNat + (1#4).toNat - 1 < 4096) ∧
    (1 ≤ (drawAt 0xFFFF).cfg.dispW ∧ 1 ≤ (drawAt 0xFFFF).cfg.dispH ∧ (0#4 : Nibble) = 0#4) ∧
    (drawAt 0).cfg.dispW * (drawAt 0).cfg.dispH ≤ 2048 := by decide
theorem witness_DrawXorsSprite_fault : 1 ≤ (drawAt 0x1000).cfg.dispW ∧ 1 ≤ (drawAt 0x1000).cfg.dispH ∧
    1 ≤ (1#4 : Nibble).toNat ∧ 4096 ≤ (drawAt 0x1000).i.toNat + (1#4 : Nibble).toNat - 1 := by decide
/-- A cell that collides, and a draw in which none does. -/
theorem witness_DrawXorsSprite_collision :
    (∃ cx cy, cx < 64 ∧ cy < 32 ∧ cellCollides { drawAt 0x200 with fb := [0] } 0 1 1 cx cy) ∧
    ¬ ∃ cx cy, cx < 64 ∧ cy < 32 ∧ cellCollides (drawAt 0x300) 0 1 1 cx cy := by
  refine ⟨⟨0, 0, by decide, by decide, ?_⟩, ?_⟩
  · unfold cellCollides; decide
  · rintro ⟨cx, cy, -, -, h, -⟩
    have h0 : ∀ row < 1, Memory.read (drawAt 0x300).memory ((drawAt 0x300).i.toNat + row) = 0#8 := by decide
    unfold spriteHits spriteRow at h
    split at h
    · omega
    · rename_i row hr
      dsimp only at hr
      split_ifs at hr with hc
      cases hr
      rw [h0 _ (by have : (1 : Nibble).toNat = 1 := rfl; omega)] at h
      simp at h
/-- On a screen 8 wide: a sprite whose first bit falls on a lit cell. -/
def narrowDraw : State := { withCfg (drawAt 0x200) (fun c => { c with dispW := 8 }) with fb := [0] }
/-- On a screen one column wide that clips. -/
def clippedDraw : State := withCfg (drawAt 0xFFFF) fun c => { c with dispW := 1, hEdge := .clip }
theorem witness_DrawXorsOneBitPerCell : 8 ≤ narrowDraw.cfg.dispW ∧ 1 ≤ narrowDraw.cfg.dispH ∧
    narrowDraw.i.toNat + (1#4 : Nibble).toNat - 1 < 4096 ∧ 0 < narrowDraw.cfg.dispW ∧ 0 < narrowDraw.cfg.dispH ∧
    spriteBitAt narrowDraw 0 1 1 1 0 = true ∧ spriteBitAt { narrowDraw with fb := [1] } 0 1 1 1 0 = true ∧
    State.pixel { narrowDraw with fb := [1] } 1 0 = true := by decide
theorem witness_DrawXorsOneBitPerCell_clip : clippedDraw.cfg.hEdge = .clip ∧ 1 ≤ clippedDraw.cfg.dispW ∧
    1 ≤ clippedDraw.cfg.dispH ∧ (0#4 : Nibble) = 0#4 ∧
    ¬ ∃ cx cy, cx < clippedDraw.cfg.dispW ∧ cy < clippedDraw.cfg.dispH ∧
      spriteBitAt clippedDraw 0 1 0 cx cy = true ∧ clippedDraw.pixel cx cy = true := by
  refine ⟨by decide, by decide, by decide, rfl, ?_⟩
  rintro ⟨cx, cy, -, -, -, h⟩
  cases h
theorem witness_DrawRangeIsChecked : 1 ≤ (1#4 : Nibble).toNat ∧ 4096 ≤ (drawAt 0x1000).i.toNat + (1#4 : Nibble).toNat - 1 ∧
    1 ≤ (0xF#4 : Nibble).toNat ∧ 4096 ≤ (drawAt 0xFF2).i.toNat + (0xF#4 : Nibble).toNat - 1 := by decide
theorem witness_DoubleDrawRestores : ((0#4 : Nibble) ≠ vF ∧ (1#4 : Nibble) ≠ vF) ∧ 1 ≤ (drawAt 0xFFF).cfg.dispW ∧
    1 ≤ (drawAt 0xFFF).cfg.dispH ∧
    Framebuffer.wf (State.fb { drawAt 0xFFF with fb := [0, 2047] }) ((drawAt 0xFFF).cfg.dispW * (drawAt 0xFFF).cfg.dispH) ∧
    (drawAt 0xFFF).i.toNat + (1#4 : Nibble).toNat - 1 < 4096 := by decide
/-- With N = 0, at an I past memory. -/
theorem witness_DoubleDrawRestores_noRow : ((0#4 : Nibble) ≠ vF ∧ (1#4 : Nibble) ≠ vF) ∧ 1 ≤ (drawAt 0xFFFF).cfg.dispW ∧
    1 ≤ (drawAt 0xFFFF).cfg.dispH ∧
    Framebuffer.wf (State.fb { drawAt 0xFFFF with fb := [0, 2047] })
      ((drawAt 0xFFFF).cfg.dispW * (drawAt 0xFFFF).cfg.dispH) ∧ (0#4 : Nibble) = 0#4 := by decide
theorem witness_SkipOnKey : (keyAt 15).keyFlag ((keyAt 15).reg 5).toNat = some false ∧
    ((keyAt 15).reg 5).toNat ≤ 15 ∧ 15 < ((keyAt 16).reg 5).toNat := by decide
theorem witness_KeyWaitBegins : (placed 0).cfg.fx0aMode = .wait ∧
    (withCfg (placed 0) fun c => { c with fx0aMode := .noop }).cfg.fx0aMode = .noop := by decide
theorem witness_KeyDownEndsKeyWait : 15 < 16 ∧ State.state { placed 0 with wait := some 0xF } = .running ∧
    State.wait { placed 0 with wait := some 0xF } = some 0xF := by decide
theorem witness_StoreDecimalDigits : (State.i { placed 0 with i := 0xFFD }).toNat + 2 < 4096 ∧
    4096 ≤ (State.i { placed 0 with i := 0xFFE }).toNat + 2 := by decide
theorem witness_StoreRegisters : (State.i { placed 0 with i := 0xFF0 }).toNat + (0xF#4 : Nibble).toNat < 4096 ∧
    4096 ≤ (State.i { placed 0 with i := 0xFF1 }).toNat + (0xF#4 : Nibble).toNat := by decide
theorem witness_LoadRegisters : (State.i { placed 0 with i := 0xFFF }).toNat + (0#4 : Nibble).toNat < 4096 ∧
    4096 ≤ (State.i { placed 0 with i := 0x1000 }).toNat + (0#4 : Nibble).toNat := by decide
theorem witness_StoreThenLoadRestoresRegisters :
    (State.i { placed 0 with i := 0xFF0 }).toNat + (0xF#4 : Nibble).toNat < 4096 := by decide
theorem witness_TickCountsDown : (placed 0).state = .running ∧
    State.state { placed 0 with state := .paused } ≠ .running := by decide
theorem witness_KeyEventsSetFlags : (15 < 16 ∧ (placed 0).state = .running ∧ (placed 0).wait = none) ∧
    State.state { placed 0 with state := .paused } = .paused ∧
    (State.reset.state ≠ .running ∧ State.reset.state ≠ .paused) ∧ 16 ≤ 16 := by decide
theorem witness_TogglePauseSwaps : (placed 0).state = .running ∧ State.state { placed 0 with state := .paused } = .paused ∧
    State.state { placed 0 with state := .halted } = .halted ∧ State.reset.state = .noMachine := by decide
/-- A halted machine, and a Load that starts it again. -/
theorem witness_HaltedIsTerminal : State.state { placed 0 with state := .halted } = .halted ∧
    (nextOf (hostOp (.load []) { placed 0 with state := .halted })).map (·.state) = some .running := ⟨rfl, rfl⟩
theorem witness_LoadStartsMachineOrReports : (placed 0).cfg.legal = true ∧ [0xFF#8].length ≤ 4096 - (placed 0).cfg.entry ∧
    (withCfg (placed 0) fun c => { c with entry := 4096 }).cfg.legal = true ∧
    ([] : List Byte).length ≤ 4096 - (withCfg (placed 0) fun c => { c with entry := 4096 }).cfg.entry ∧
    4096 - (withCfg (placed 0) fun c => { c with entry := 4096 }).cfg.entry < [0x00#8].length := by decide
theorem witness_LoadBoundary : (placed 0).cfg = Config.default ∧ (List.replicate 3584 0x12#8).length = 3584 ∧
    (List.replicate 3585 0x12#8).length = 3585 := ⟨rfl, List.length_replicate, List.length_replicate⟩
theorem witness_PowerOnValues : (nextOf (hostOp (.load []) State.reset)).map (·.state) = some .running := rfl
theorem witness_TraceOfCompletedCycles : ((placed 0x00E0).fault = none ∧ (placed 0x00E0).cycleEnabled = true ∧
    (nextOf (cycle (placed 0x00E0))).map (·.fault) = some none) ∧
    ((placed 0x00EE).fault = none ∧ (placed 0x00EE).cycleEnabled = true ∧
      (nextOf (cycle (placed 0x00EE))).map (·.fault) = some (some .stackUnderflow)) ∧
    (State.reset.fault = none ∧ State.reset.cycleEnabled = false) := by decide

end Sys2Proof.Tests
end

section
/-! PROOFS. The configuration (00_scope.md R6, R7): a step outside the legal ranges is refused by name, and no step
changes a parameter. Both rest on one fact of every instruction: it completes in a next state and leaves alone what
belongs to the host. -/

namespace Sys2Proof.Machine

/-! ### What an instruction leaves to the host -/

/-- `t` has the keypad, the parameters, the load report and the list of host operations of `s`, and the controller is
where it was or has halted (10_state.md R29; 60_exceptions.md R202, R203). -/
structure State.KeepsHostSide (s t : State) : Prop where
  key        : t.key = s.key
  cfg        : t.cfg = s.cfg
  loadResult : t.loadResult = s.loadResult
  inputs     : t.inputs = s.inputs
  state      : t.state = s.state ∨ t.state = .halted

/-- The outcome at `s` is a next state, with the host's side kept. -/
def CompletesKeepingHostSide (s : State) (o : Host.Outcome State Fault Refusal) : Prop :=
  ∃ t, o = .next t ∧ s.KeepsHostSide t

theorem completes_next {s t : State} (h : s.KeepsHostSide t) : CompletesKeepingHostSide s (.next t) := ⟨t, rfl, h⟩

theorem State.keepsHostSide_refl (s : State) : s.KeepsHostSide s := ⟨rfl, rfl, rfl, rfl, .inl rfl⟩

theorem State.keepsHostSide_advance (s : State) : s.KeepsHostSide s.advance := ⟨rfl, rfl, rfl, rfl, .inl rfl⟩

theorem State.KeepsHostSide.setReg {s t : State} (h : s.KeepsHostSide t) (x : Nibble) (b : Byte) :
    s.KeepsHostSide (t.setReg x b) := ⟨h.key, h.cfg, h.loadResult, h.inputs, h.state⟩

theorem State.KeepsHostSide.withFb {s t : State} (h : s.KeepsHostSide t) (fb : Framebuffer) :
    s.KeepsHostSide { t with fb := fb } := ⟨h.key, h.cfg, h.loadResult, h.inputs, h.state⟩

theorem State.KeepsHostSide.storeData {s t : State} (h : s.KeepsHostSide t) (bs : List Byte) :
    s.KeepsHostSide (t.storeData bs) := ⟨h.key, h.cfg, h.loadResult, h.inputs, h.state⟩

theorem State.KeepsHostSide.loadRegsUpTo {s t : State} (h : s.KeepsHostSide t) (x : Nibble) :
    s.KeepsHostSide (t.loadRegsUpTo x) := by
  constructor <;> simp [h.key, h.cfg, h.loadResult, h.inputs, h.state]

theorem State.KeepsHostSide.skipIf {s t : State} (h : s.KeepsHostSide t) (c : Bool) :
    s.KeepsHostSide (t.skipIf c) := by
  constructor <;> simp [h.key, h.cfg, h.loadResult, h.inputs, h.state]

theorem State.KeepsHostSide.writeFR {s t : State} (h : s.KeepsHostSide t) (x : Nibble) (flag res : Byte) :
    s.KeepsHostSide (t.writeFR x flag res) := by
  constructor <;> simp [h.key, h.cfg, h.loadResult, h.inputs, h.state]

/-- Taking a fault is a next state (60_exceptions.md R203). -/
theorem raiseFault_completes (code : FaultCode) (s : State) : CompletesKeepingHostSide s (raiseFault code s) :=
  completes_next ⟨rfl, rfl, rfl, rfl, .inr rfl⟩

theorem execRet_completes (s : State) : CompletesKeepingHostSide s (execRet s) := by
  unfold execRet
  split
  case h_1 => exact raiseFault_completes _ s
  case h_2 a t hpop =>
    obtain ⟨rest, -, rfl⟩ := State.pop_eq_some.1 hpop
    exact completes_next ⟨rfl, rfl, rfl, rfl, .inl rfl⟩

theorem execCall_completes (nnn : Addr) (s : State) : CompletesKeepingHostSide s (execCall nnn s) := by
  unfold execCall
  split
  case h_1 => exact raiseFault_completes _ s
  case h_2 t hpush =>
    obtain ⟨-, rfl⟩ := State.push_eq_some.1 hpush
    exact completes_next ⟨rfl, rfl, rfl, rfl, .inl rfl⟩

/-- A range check before the meaning: the other branch is MemOutOfRange (20_memory.md R53). -/
theorem checked_completes {s t : State} {ok : Bool} (h : s.KeepsHostSide t) :
    CompletesKeepingHostSide s (if ok then .next t else raiseFault .memOutOfRange s) := by
  cases ok
  · exact raiseFault_completes _ s
  · exact completes_next h

theorem execSkp_completes (x : Nibble) (s : State) : CompletesKeepingHostSide s (execSkp x s) := by
  unfold execSkp
  split
  · exact raiseFault_completes _ s
  · exact completes_next (s.keepsHostSide_advance.skipIf _)

theorem execSknp_completes (x : Nibble) (s : State) : CompletesKeepingHostSide s (execSknp x s) := by
  unfold execSknp
  split
  · exact raiseFault_completes _ s
  · exact completes_next (s.keepsHostSide_advance.skipIf _)

theorem execLdK_completes (x : Nibble) (s : State) : CompletesKeepingHostSide s (execLdK x s) := by
  unfold execLdK
  split
  · exact completes_next ⟨rfl, rfl, rfl, rfl, .inl rfl⟩
  · exact completes_next s.keepsHostSide_advance

/-- Every instruction completes in a next state and keeps the host's side. -/
theorem exec_completes (i : Instr) (s : State) : CompletesKeepingHostSide s (exec i s) := by
  cases i with
  | ret => exact execRet_completes s
  | call nnn => exact execCall_completes nnn s
  | skp x => exact execSkp_completes x s
  | sknp x => exact execSknp_completes x s
  | ldK x => exact execLdK_completes x s
  | drw => exact checked_completes (s.keepsHostSide_advance.withFb _ |>.setReg _ _)
  | ldB | ldStore => exact checked_completes (s.keepsHostSide_advance.storeData _)
  | ldLoad => exact checked_completes (s.keepsHostSide_advance.loadRegsUpTo _)
  | seImm | sneImm | seReg | sneReg => exact completes_next (s.keepsHostSide_advance.skipIf _)
  | addReg | sub | shr | subn | shl => exact completes_next (s.keepsHostSide_advance.writeFR _ _ _)
  | ldImm | addImm | ldReg | orReg | andReg | xorReg | ldVxDt =>
    exact completes_next (s.keepsHostSide_advance.setReg _ _)
  | cls | jp | jpV0 | ldI | rnd | ldDt | ldSt | addI | ldF => exact completes_next ⟨rfl, rfl, rfl, rfl, .inl rfl⟩

/-- An unrecognized opcode is the pre-advance alone (30_encoding.md R76). -/
theorem execWord_completes (w : Word) (s : State) : CompletesKeepingHostSide s (execWord w s) := by
  unfold execWord
  split
  · exact exec_completes _ s
  · exact completes_next s.keepsHostSide_advance

/-- Every cycle completes too: gated, faulting at the fetch, or executing the fetched word (40_cycle.md R97). -/
theorem cycle_completes (s : State) : CompletesKeepingHostSide s (cycle s) := by
  unfold cycle
  split
  · split
    · exact raiseFault_completes _ s
    · exact execWord_completes _ s
  · exact completes_next s.keepsHostSide_refl

theorem cycle_cfg {s t : State} (h : cycle s = .next t) : t.cfg = s.cfg := by
  obtain ⟨u, hu, hkeep⟩ := cycle_completes s
  cases hu.symm.trans h
  exact hkeep.cfg

/-! ### The parameters under the host operations -/

@[simp] theorem load_cfg (rom : List Byte) (s : State) : (load rom s).cfg = s.cfg := by
  unfold load; split <;> rfl

@[simp] theorem tick_cfg (s : State) : (tick s).cfg = s.cfg := by
  unfold tick; split <;> rfl

@[simp] theorem State.endWait_cfg (s : State) (k : Nat) : (s.endWait k).cfg = s.cfg := by
  unfold State.endWait; split <;> rfl

@[simp] theorem keyDown_cfg (k : Nat) (s : State) : (keyDown k s).cfg = s.cfg := by
  unfold keyDown
  split
  · dsimp only
    split
    · exact State.endWait_cfg _ k
    · rfl
  · rfl

@[simp] theorem keyUp_cfg (k : Nat) (s : State) : (keyUp k s).cfg = s.cfg := by
  unfold keyUp; split <;> rfl

@[simp] theorem togglePause_cfg (s : State) : (togglePause s).cfg = s.cfg := by
  unfold togglePause; split <;> rfl

@[simp] theorem quit_cfg (s : State) : (quit s).cfg = s.cfg := rfl

@[simp] theorem nextOp_snd_cfg (s : State) : (nextOp s).2.cfg = s.cfg := by
  rw [nextOp_snd]

theorem hostOp_cfg {op : HostOp} {s t : State} (h : hostOp op s = .next t) : t.cfg = s.cfg := by
  obtain ⟨rom, -, rfl⟩ | ⟨-, hcycle⟩ | ⟨-, rfl⟩ | ⟨k, -, -, rfl⟩ | ⟨k, -, -, rfl⟩ | ⟨-, rfl⟩ | ⟨-, rfl⟩ :=
    hostOp_cases h
  · exact load_cfg rom s
  · exact cycle_cfg hcycle
  · exact tick_cfg s
  · exact keyDown_cfg k s
  · exact keyUp_cfg k s
  · exact togglePause_cfg s
  · exact quit_cfg s

/-- Settles O16: the operation is taken off the list, which leaves the parameters, and then applied. -/
theorem stepKeepsConfiguration : Obligations.StepKeepsConfiguration := by
  intro s t hstep
  obtain ⟨-, hop⟩ := step_cases hstep
  exact (hostOp_cfg hop).trans (nextOp_snd_cfg s)

/-! ### Refusals -/

/-- The only refusal of a host operation is that of a key index outside 0..15 (60_exceptions.md R234). -/
theorem hostOp_refused {op : HostOp} {s : State} {r : Refusal} (h : hostOp op s = .refused r) :
    r = .keyIndexRefused ∧ ∃ k, 16 ≤ k ∧ (op = .keyDown k ∨ op = .keyUp k) := by
  cases op with
  | cycle =>
    obtain ⟨t, ht, -⟩ := cycle_completes s
    cases ht.symm.trans h
  | keyDown k =>
    simp only [hostOp] at h
    split_ifs at h with hk
    cases h
    exact ⟨rfl, k, by omega, .inl rfl⟩
  | keyUp k =>
    simp only [hostOp] at h
    split_ifs at h with hk
    cases h
    exact ⟨rfl, k, by omega, .inr rfl⟩
  | load | tick | togglePause | quit => cases h

/-- A step is refused for its configuration exactly where that is illegal (00_scope.md R7; log entry 3). -/
theorem step_refused_illegalConfiguration_iff (s : State) :
    step s = .refused .illegalConfiguration ↔ ¬ s.cfg.legal = true := by
  unfold step hostStep
  split
  case isTrue hlegal =>
    refine iff_of_false (fun h => ?_) (not_not_intro hlegal)
    exact absurd (hostOp_refused h).1 (by decide)
  case isFalse hillegal => exact iff_of_true rfl hillegal

/-- Settles O9: the step's check is the six ranges in plain arithmetic. -/
theorem illegalConfigurationRefused : Obligations.IllegalConfigurationRefused := by
  intro s
  rw [step_refused_illegalConfiguration_iff, Config.legal_iff]

end Sys2Proof.Machine
end

section
/-! PROOFS. The state (10_state.md): how a step takes the host's next operation, what every instruction leaves to the
host, and the invariant of every state a run reaches. For the invariant, each named update of the state keeps it by a
lemma of its own; the instructions, the cycle and the host operations are then put together from these. -/

namespace Sys2Proof.Machine

/-! ### The host's next operation (10_state.md R40, R41) -/

theorem nextOp_of_nil {s : State} (h : s.inputs = []) : nextOp s = (.cycle, s) := by
  simp [nextOp, h]

theorem nextOp_of_cons {s : State} {op : HostOp} {rest : List HostOp} (h : s.inputs = op :: rest) :
    nextOp s = (op, { s with inputs := rest }) := by
  simp [nextOp, h]

/-- Under a legal configuration the step is the host's next operation (log entry 6). -/
theorem step_of_legal {s : State} (h : s.cfg.legal = true) : step s = hostOp (nextOp s).1 (nextOp s).2 := by
  rw [step, hostStep, if_pos h]

/-- Settles O10: the next operation is Cycle on an empty list, else the head of the list, which is taken off. -/
theorem stepTakesListedOperation : Obligations.StepTakesListedOperation := by
  intro s hlegal
  refine ⟨fun hnil => ?_, fun op rest hcons => ?_⟩
  · rw [step_of_legal hlegal, nextOp_of_nil hnil]
  · rw [step_of_legal hlegal, nextOp_of_cons hcons]

/-! ### What every instruction leaves to the host -/

/-- Settles O17: it is `exec_completes`, field by field. -/
theorem instructionsNeverStop : Obligations.InstructionsNeverStop := by
  intro i s
  obtain ⟨t, ht, hkey, hcfg, hload, hinputs, hstate⟩ := exec_completes i s
  exact ⟨t, ht, hkey, hcfg, hload, hinputs, hstate⟩

/-! ### The invariant under each update of the state -/

/-- The invariant speaks of seven elements; a state with the same seven meets it too. -/
theorem State.Inv.of_unchanged {s t : State} (h : s.Inv) (hcfg : t.cfg = s.cfg) (hmemory : t.memory = s.memory)
    (hfb : t.fb = s.fb) (hstack : t.stack = s.stack) (hstate : t.state = s.state) (hwait : t.wait = s.wait)
    (hfault : t.fault = s.fault) : t.Inv where
  cfg := by rw [hcfg]; exact h.cfg
  memory := by rw [hmemory]; exact h.memory
  fb := by rw [hfb, hcfg]; exact h.fb
  stack := by rw [State.sp, hstack, hcfg]; exact h.stack
  fault := by rw [hfault, hstate]; exact h.fault
  noWait := by rw [hcfg, hwait]; exact h.noWait
  machine := by rw [hstate, hwait]; exact h.machine

theorem State.Inv.advance {s : State} (h : s.Inv) : s.advance.Inv := h.of_unchanged rfl rfl rfl rfl rfl rfl rfl

theorem State.Inv.jump {s : State} (h : s.Inv) (a : Word) : (s.jump a).Inv :=
  h.of_unchanged rfl rfl rfl rfl rfl rfl rfl

theorem State.Inv.random {s : State} (h : s.Inv) : s.random.2.Inv := h.of_unchanged rfl rfl rfl rfl rfl rfl rfl

theorem State.Inv.setReg {s : State} (h : s.Inv) (x : Nibble) (b : Byte) : (s.setReg x b).Inv :=
  h.of_unchanged rfl rfl rfl rfl rfl rfl rfl

theorem State.Inv.withI {s : State} (h : s.Inv) (i : Word) : State.Inv { s with i := i } :=
  h.of_unchanged rfl rfl rfl rfl rfl rfl rfl

theorem State.Inv.withTimers {s : State} (h : s.Inv) (dt st : Byte) : State.Inv { s with dt := dt, st := st } :=
  h.of_unchanged rfl rfl rfl rfl rfl rfl rfl

theorem State.Inv.withKey {s : State} (h : s.Inv) (key : Vector Bool 16) : State.Inv { s with key := key } :=
  h.of_unchanged rfl rfl rfl rfl rfl rfl rfl

theorem State.Inv.withInputs {s : State} (h : s.Inv) (inputs : List HostOp) :
    State.Inv { s with inputs := inputs } :=
  h.of_unchanged rfl rfl rfl rfl rfl rfl rfl

theorem State.Inv.withLoadResult {s : State} (h : s.Inv) (r : Option LoadResult) :
    State.Inv { s with loadResult := r } :=
  h.of_unchanged rfl rfl rfl rfl rfl rfl rfl

theorem State.Inv.loadRegsUpTo {s : State} (h : s.Inv) (x : Nibble) : (s.loadRegsUpTo x).Inv := by
  apply h.of_unchanged <;> simp

theorem State.Inv.skipIf {s : State} (h : s.Inv) (c : Bool) : (s.skipIf c).Inv := by
  apply h.of_unchanged <;> simp

theorem State.Inv.writeFR {s : State} (h : s.Inv) (x : Nibble) (flag res : Byte) : (s.writeFR x flag res).Inv := by
  apply h.of_unchanged <;> simp

theorem State.Inv.withMemory {s : State} (h : s.Inv) {m : Memory} (hm : Memory.wf m) :
    State.Inv { s with memory := m } :=
  ⟨h.cfg, hm, h.fb, h.stack, h.fault, h.noWait, h.machine⟩

theorem State.Inv.withFb {s : State} (h : s.Inv) {fb : Framebuffer}
    (hfb : Framebuffer.wf fb (s.cfg.dispW * s.cfg.dispH)) : State.Inv { s with fb := fb } :=
  ⟨h.cfg, h.memory, hfb, h.stack, h.fault, h.noWait, h.machine⟩

theorem State.Inv.withStack {s : State} (h : s.Inv) {stack : List Word} (hlen : stack.length ≤ s.cfg.stackDepth) :
    State.Inv { s with stack := stack } :=
  ⟨h.cfg, h.memory, h.fb, hlen, h.fault, h.noWait, h.machine⟩

/-- The end of a key wait. -/
theorem State.Inv.withoutWait {s : State} (h : s.Inv) : State.Inv { s with wait := none } :=
  ⟨h.cfg, h.memory, h.fb, h.stack, h.fault, fun _ => rfl, fun _ => rfl⟩

/-- A key wait may begin where a program has been loaded and `FX0A_MODE` is WAIT (44_keypad.md R172, R175). -/
theorem State.Inv.withWait {s : State} (h : s.Inv) (hmode : s.cfg.fx0aMode ≠ .noop) (hstate : s.state ≠ .noMachine)
    (x : Nibble) : State.Inv { s with wait := some x } :=
  ⟨h.cfg, h.memory, h.fb, h.stack, h.fault, fun hnoop => absurd hnoop hmode, fun hno => absurd hno hstate⟩

/-- A halted machine may record any fault or none (60_exceptions.md R203, R230). -/
theorem State.Inv.halted {s : State} (h : s.Inv) (fault : Option FaultCode) :
    State.Inv { s with fault := fault, state := .halted } :=
  ⟨h.cfg, h.memory, h.fb, h.stack, fun _ => rfl, h.noWait, nofun⟩

/-- A machine that has not halted has no fault to keep it from RUNNING or PAUSED (60_exceptions.md R203, R231). -/
theorem State.Inv.withState {s : State} (h : s.Inv) (hs : s.state ≠ .halted) {state : RunState}
    (hstate : state ≠ .noMachine) : State.Inv { s with state := state } :=
  ⟨h.cfg, h.memory, h.fb, h.stack, fun hfault => absurd (h.fault hfault) hs, h.noWait, fun hno => absurd hno hstate⟩

/-! ### The updates that have a bound to check -/

/-- A store whose range has been checked stays in the address space (20_memory.md R53). -/
theorem State.Inv.storeData {s : State} (h : s.Inv) {bs : List Byte} (hok : s.dataAccessOk bs.length = true) :
    (s.storeData bs).Inv := by
  refine h.withMemory ?_
  rcases (s.dataAccessOk_iff _).1 hok with hnil | hfits
  · rw [List.length_eq_zero_iff.1 hnil]; exact h.memory
  · exact Memory.writeBytes_wf h.memory hfits

/-- A draw keeps the canonical form: every cell it XORs lies on the screen (43_display.md R154, R156). -/
theorem drawRows_fb_wf {s : State} (h : s.Inv) (ox oy n row : Nat) {p : Canvas}
    (hp : Framebuffer.wf p.fb (s.cfg.dispW * s.cfg.dispH)) :
    Framebuffer.wf (drawRows s ox oy n row p).fb (s.cfg.dispW * s.cfg.dispH) := by
  obtain ⟨-, -, -, -, hw, -⟩ := s.cfg.legal_iff.1 h.cfg
  rw [drawRows_eq]
  refine foldl_xorCell_wf (fun k hk => ?_) hp
  obtain ⟨x, y, hx, hy, rfl⟩ := spriteCells_on_screen hw hk
  exact cellIndex_lt hx hy

/-- The font ends below `ENTRY` and an accepted program ends in memory (70_reset_and_hazards.md R241, R243). -/
theorem loadMemory_wf {s : State} (h : s.Inv) {rom : List Byte} (hfits : ¬ romTooLarge s.cfg rom = true) :
    Memory.wf (loadMemory s rom) := by
  obtain ⟨-, -, -, hentry, -, -⟩ := s.cfg.legal_iff.1 h.cfg
  rw [romTooLarge_iff] at hfits
  have hfont : fontBase + s.cfg.font.toList.length ≤ memSize := by simp [fontBase, memSize]
  exact Memory.writeBytes_wf (Memory.writeBytes_wf h.memory hfont) (by simp only [memSize]; omega)

/-! ### The invariant under the instructions -/

/-- Where the outcome is a next state, that state meets the invariant. -/
def InvAfter (o : Host.Outcome State Fault Refusal) : Prop := ∀ t, o = .next t → t.Inv

theorem invAfter_next {t : State} (h : t.Inv) : InvAfter (.next t) := by
  rintro _ ⟨⟩
  exact h

theorem raiseFault_invAfter {s : State} (h : s.Inv) (code : FaultCode) : InvAfter (raiseFault code s) :=
  invAfter_next (h.halted _)

/-- A range check before the meaning: the meaning may rely on it, and the other branch is MemOutOfRange
(20_memory.md R53). -/
theorem checked_invAfter {s t : State} {ok : Bool} (h : s.Inv) (ht : ok = true → t.Inv) :
    InvAfter (if ok then .next t else raiseFault .memOutOfRange s) := by
  cases ok
  · exact raiseFault_invAfter h _
  · exact invAfter_next (ht rfl)

/-- A pop shortens the stack (41_control_flow.md R101). -/
theorem execRet_invAfter {s : State} (h : s.Inv) : InvAfter (execRet s) := by
  unfold execRet
  split
  case h_1 => exact raiseFault_invAfter h _
  case h_2 a t hpop =>
    obtain ⟨rest, hstack, rfl⟩ := State.pop_eq_some.1 hpop
    have hdepth : s.advance.stack.length ≤ s.cfg.stackDepth := h.stack
    rw [hstack, List.length_cons] at hdepth
    exact invAfter_next ((h.advance.withStack (Nat.le_of_succ_le hdepth)).jump a)

/-- A push is made only where an entry is free (41_control_flow.md R100). -/
theorem execCall_invAfter {s : State} (h : s.Inv) (nnn : Addr) : InvAfter (execCall nnn s) := by
  unfold execCall
  split
  case h_1 => exact raiseFault_invAfter h _
  case h_2 t hpush =>
    obtain ⟨hroom, rfl⟩ := State.push_eq_some.1 hpush
    have hdepth : (s.advance.pc :: s.advance.stack).length ≤ s.cfg.stackDepth := Nat.succ_le_of_lt hroom
    exact invAfter_next ((h.advance.withStack hdepth).jump _)

theorem execDrw_invAfter {s : State} (h : s.Inv) (x y n : Nibble) : InvAfter (execDrw x y n s) :=
  checked_invAfter h fun _ => (h.advance.withFb (drawRows_fb_wf h _ _ _ _ h.fb)).setReg _ _

theorem execSkp_invAfter {s : State} (h : s.Inv) (x : Nibble) : InvAfter (execSkp x s) := by
  unfold execSkp
  split
  · exact raiseFault_invAfter h _
  · exact invAfter_next (h.advance.skipIf _)

theorem execSknp_invAfter {s : State} (h : s.Inv) (x : Nibble) : InvAfter (execSknp x s) := by
  unfold execSknp
  split
  · exact raiseFault_invAfter h _
  · exact invAfter_next (h.advance.skipIf _)

/-- The one instruction whose meaning does not keep the invariant from every state: `exec` checks no gate (log entry
17), and before the first Load no key wait may begin. -/
theorem execLdK_invAfter {s : State} (h : s.Inv) (hrun : s.state = .running) (x : Nibble) :
    InvAfter (execLdK x s) := by
  unfold execLdK
  split
  case h_1 hmode => exact invAfter_next (h.advance.withWait (by simp [hmode]) (by simp [hrun]) x)
  case h_2 => exact invAfter_next h.advance

/-- The three digits fill the range that was checked (46_fx_extension.md R186). -/
theorem execLdB_invAfter {s : State} (h : s.Inv) (x : Nibble) : InvAfter (execLdB x s) :=
  checked_invAfter h fun hok => h.advance.storeData (bs := decimalDigits (s.reg x)) hok

/-- The registers stored fill the range that was checked (46_fx_extension.md R187). -/
theorem execLdStore_invAfter {s : State} (h : s.Inv) (x : Nibble) : InvAfter (execLdStore x s) := by
  refine checked_invAfter h fun hok => h.advance.storeData ?_
  rw [State.regsUpTo_length]
  exact hok

/-- Every instruction run in RUNNING keeps the invariant. -/
theorem exec_invAfter {s : State} (h : s.Inv) (hrun : s.state = .running) (i : Instr) : InvAfter (exec i s) := by
  cases i with
  | cls => exact invAfter_next (h.advance.withFb (Framebuffer.wf_nil _))
  | ret => exact execRet_invAfter h
  | call nnn => exact execCall_invAfter h nnn
  | drw x y n => exact execDrw_invAfter h x y n
  | skp x => exact execSkp_invAfter h x
  | sknp x => exact execSknp_invAfter h x
  | ldK x => exact execLdK_invAfter h hrun x
  | ldB x => exact execLdB_invAfter h x
  | ldStore x => exact execLdStore_invAfter h x
  | ldLoad x => exact checked_invAfter h fun _ => h.advance.loadRegsUpTo x
  | jp | jpV0 => exact invAfter_next (h.advance.jump _)
  | seImm | sneImm | seReg | sneReg => exact invAfter_next (h.advance.skipIf _)
  | addReg | sub | shr | subn | shl => exact invAfter_next (h.advance.writeFR _ _ _)
  | ldImm | addImm | ldReg | orReg | andReg | xorReg | ldVxDt => exact invAfter_next (h.advance.setReg _ _)
  | rnd => exact invAfter_next (h.advance.random.setReg _ _)
  | ldI | addI | ldF => exact invAfter_next (h.advance.withI _)
  | ldDt x => exact invAfter_next (h.advance.withTimers (s.reg x) s.st)
  | ldSt x => exact invAfter_next (h.advance.withTimers s.dt (s.reg x))

/-! ### The invariant under the host operations -/

theorem cycle_inv {s t : State} (h : s.Inv) (hcycle : cycle s = .next t) : t.Inv := by
  obtain ⟨-, rfl⟩ | ⟨-, -, rfl⟩ | ⟨w, e, -, -, -, rfl⟩ | ⟨w, i, hgate, -, -, hexec⟩ := cycle_cases hcycle
  · exact h
  · exact h.halted _
  · exact h.advance
  · exact exec_invAfter h (s.cycleEnabled_iff.1 hgate).1 i t hexec

theorem load_inv {s : State} (h : s.Inv) (rom : List Byte) : (load rom s).Inv := by
  unfold load
  split
  case isTrue => exact h.withLoadResult _
  case isFalse hfits =>
    exact ⟨h.cfg, loadMemory_wf h hfits, h.fb, Nat.zero_le _, fun hfault => absurd rfl hfault, fun _ => rfl, nofun⟩

theorem tick_inv {s : State} (h : s.Inv) : (tick s).Inv := by
  unfold tick
  split
  · exact h.withTimers _ _
  · exact h

theorem State.Inv.endWait {s : State} (h : s.Inv) (k : Nat) : (s.endWait k).Inv := by
  unfold State.endWait
  split
  · exact h
  · exact (h.setReg _ _).withoutWait

theorem keyDown_inv {s : State} (h : s.Inv) (k : Nat) : (keyDown k s).Inv := by
  unfold keyDown
  dsimp only
  split_ifs
  · exact (h.withKey _).endWait k
  · exact h.withKey _
  · exact h

theorem keyUp_inv {s : State} (h : s.Inv) (k : Nat) : (keyUp k s).Inv := by
  unfold keyUp
  split
  · exact h.withKey _
  · exact h

theorem togglePause_inv {s : State} (h : s.Inv) : (togglePause s).Inv := by
  unfold togglePause
  split
  case h_1 hrun => exact h.withState (by simp [hrun]) (by decide)
  case h_2 hpaused => exact h.withState (by simp [hpaused]) (by decide)
  case h_3 | h_4 => exact h

theorem quit_inv {s : State} (h : s.Inv) : (quit s).Inv := h.halted s.fault

theorem hostOp_inv {op : HostOp} {s t : State} (h : s.Inv) (hop : hostOp op s = .next t) : t.Inv := by
  obtain ⟨rom, -, rfl⟩ | ⟨-, hcycle⟩ | ⟨-, rfl⟩ | ⟨k, -, -, rfl⟩ | ⟨k, -, -, rfl⟩ | ⟨-, rfl⟩ | ⟨-, rfl⟩ :=
    hostOp_cases hop
  · exact load_inv h rom
  · exact cycle_inv h hcycle
  · exact tick_inv h
  · exact keyDown_inv h k
  · exact keyUp_inv h k
  · exact togglePause_inv h
  · exact quit_inv h

/-- Settles O12: the operation is taken off the list, of which the invariant does not speak, and then applied. -/
theorem stepKeepsInvariant : Obligations.StepKeepsInvariant := by
  intro s t h hstep
  obtain ⟨-, hop⟩ := step_cases hstep
  rw [nextOp_snd] at hop
  exact hostOp_inv (h.withInputs _) hop

/-! ### Reset (10_state.md R37) -/

theorem reset_inv : State.reset.Inv where
  cfg := by decide
  memory := Memory.wf_nil
  fb := Framebuffer.wf_nil _
  stack := Nat.zero_le _
  fault := fun hfault => absurd rfl hfault
  noWait := fun _ => rfl
  machine := fun _ => rfl

theorem reset_baseInv : State.reset.BaseInv where
  base := rfl
  i := Nat.zero_le _
  dt := rfl
  st := rfl

/-- Settles O13: power-on clears every element, under the default parameters (log entry 2). -/
theorem resetMeetsInvariant : Obligations.ResetMeetsInvariant := ⟨reset_inv, reset_baseInv⟩

end Sys2Proof.Machine
end

section
/-! PROOFS. Memory (20_memory.md): who writes it. Of the instructions only FX33 and FX55 do, and both belong to the
extension, which the decoder gives only when `CANONICAL_FX` is true; of the host operations only Load does. -/

namespace Sys2Proof

/-! ### The decoder gives only instructions of the set (30_encoding.md R72; 46_fx_extension.md R180) -/

/-- Outside the extension an instruction belongs to every instruction set. -/
theorem Instr.wellFormed_of_not_isExtension {i : Instr} (h : i.isExtension = false) (c : Config) :
    i.wellFormed c = true := by
  simp [Instr.wellFormed, h]

/-- With `CANONICAL_FX` false the instruction set holds no row of the extension. -/
theorem Instr.wellFormed_base {c : Config} (hbase : c.canonicalFx = false) (i : Instr) :
    i.wellFormed c = true ↔ i.isExtension = false := by
  simp [Instr.wellFormed, hbase]

theorem decodeZero_isExtension {w : Word} {i : Instr} (h : decodeZero w = .ok i) : i.isExtension = false := by
  unfold decodeZero at h
  split_ifs at h <;> cases h <;> rfl

theorem decodeAlu_isExtension {c : Config} {w : Word} {i : Instr} (h : decodeAlu c w = .ok i) :
    i.isExtension = false := by
  unfold decodeAlu at h
  dsimp only at h
  split at h
  case h_9 => split_ifs at h; cases h; rfl
  all_goals cases h; rfl

theorem decodeKey_isExtension {w : Word} {i : Instr} (h : decodeKey w = .ok i) : i.isExtension = false := by
  unfold decodeKey at h
  split_ifs at h <;> cases h <;> rfl

/-- The F family is the only one with rows of the extension, and gives them only where they are enabled. -/
theorem decodeFx_wellFormed {c : Config} {w : Word} {i : Instr} (h : decodeFx c w = .ok i) :
    i.wellFormed c = true := by
  unfold decodeFx at h
  split_ifs at h with hwait hfx
  · cases h
    exact Instr.wellFormed_of_not_isExtension rfl c
  · simp [Instr.wellFormed, hfx]

/-- What a word decodes to is an instruction of the set. -/
theorem decodeWord_wellFormed {c : Config} {w : Word} {i : Instr} (h : decodeWord c w = .ok i) :
    i.wellFormed c = true := by
  unfold decodeWord at h
  split at h
  case h_1 => exact Instr.wellFormed_of_not_isExtension (decodeZero_isExtension h) c
  case h_9 => exact Instr.wellFormed_of_not_isExtension (decodeAlu_isExtension h) c
  case h_15 => exact Instr.wellFormed_of_not_isExtension (decodeKey_isExtension h) c
  case h_16 => exact decodeFx_wellFormed h
  case h_6 | h_10 =>
    split_ifs at h
    cases h
    exact Instr.wellFormed_of_not_isExtension rfl c
  all_goals
    cases h
    exact Instr.wellFormed_of_not_isExtension rfl c

end Sys2Proof

namespace Sys2Proof.Machine

/-! ### Memory under the instructions -/

/-- Where the outcome at `s` is a next state, that state has the memory of `s`. -/
def KeepsMemory (s : State) (o : Host.Outcome State Fault Refusal) : Prop := ∀ t, o = .next t → t.memory = s.memory

theorem keepsMemory_next {s t : State} (h : t.memory = s.memory) : KeepsMemory s (.next t) := by
  rintro _ ⟨⟩
  exact h

/-- A fault leaves memory as it was before the cycle (60_exceptions.md R204). -/
theorem raiseFault_keepsMemory (code : FaultCode) (s : State) : KeepsMemory s (raiseFault code s) :=
  keepsMemory_next rfl

/-- A range check before a meaning that only reads memory (R53). -/
theorem checked_keepsMemory {s t : State} {ok : Bool} (h : t.memory = s.memory) :
    KeepsMemory s (if ok then .next t else raiseFault .memOutOfRange s) := by
  cases ok
  · exact raiseFault_keepsMemory _ s
  · exact keepsMemory_next h

/-- The call stack is not in memory (10_state.md R25). -/
theorem execRet_keepsMemory (s : State) : KeepsMemory s (execRet s) := by
  unfold execRet
  split
  case h_1 => exact raiseFault_keepsMemory _ s
  case h_2 a t hpop =>
    obtain ⟨rest, -, rfl⟩ := State.pop_eq_some.1 hpop
    exact keepsMemory_next rfl

theorem execCall_keepsMemory (nnn : Addr) (s : State) : KeepsMemory s (execCall nnn s) := by
  unfold execCall
  split
  case h_1 => exact raiseFault_keepsMemory _ s
  case h_2 t hpush =>
    obtain ⟨-, rfl⟩ := State.push_eq_some.1 hpush
    exact keepsMemory_next rfl

theorem execSkp_keepsMemory (x : Nibble) (s : State) : KeepsMemory s (execSkp x s) := by
  unfold execSkp
  split
  · exact raiseFault_keepsMemory _ s
  · exact keepsMemory_next (State.skipIf_memory _ _)

theorem execSknp_keepsMemory (x : Nibble) (s : State) : KeepsMemory s (execSknp x s) := by
  unfold execSknp
  split
  · exact raiseFault_keepsMemory _ s
  · exact keepsMemory_next (State.skipIf_memory _ _)

theorem execLdK_keepsMemory (x : Nibble) (s : State) : KeepsMemory s (execLdK x s) := by
  unfold execLdK
  split <;> exact keepsMemory_next rfl

/-- Every instruction but FX33 and FX55 keeps memory (46_fx_extension.md R186, R187). -/
theorem exec_keepsMemory {i : Instr} (hldB : ∀ x, i ≠ .ldB x) (hldStore : ∀ x, i ≠ .ldStore x) (s : State) :
    KeepsMemory s (exec i s) := by
  cases i with
  | ldB x => exact absurd rfl (hldB x)
  | ldStore x => exact absurd rfl (hldStore x)
  | ret => exact execRet_keepsMemory s
  | call nnn => exact execCall_keepsMemory nnn s
  | skp x => exact execSkp_keepsMemory x s
  | sknp x => exact execSknp_keepsMemory x s
  | ldK x => exact execLdK_keepsMemory x s
  | drw | ldLoad => exact checked_keepsMemory rfl
  | seImm | sneImm | seReg | sneReg => exact keepsMemory_next (State.skipIf_memory _ _)
  | addReg | sub | shr | subn | shl => exact keepsMemory_next (State.writeFR_memory _ _ _ _)
  | cls | jp | jpV0 | ldImm | addImm | ldReg | orReg | andReg | xorReg | ldI | rnd | ldVxDt | ldDt | ldSt | addI
  | ldF => exact keepsMemory_next rfl

/-- FX33 and FX55 belong to the extension, so the base instruction set only reads memory (R51). -/
theorem exec_keepsMemory_of_not_isExtension {i : Instr} (h : i.isExtension = false) (s : State) :
    KeepsMemory s (exec i s) := by
  refine exec_keepsMemory ?_ ?_ s <;> rintro x rfl <;> cases h

/-! ### Memory under the host operations -/

theorem cycle_memory_of_base {s t : State} (hbase : s.cfg.canonicalFx = false) (h : cycle s = .next t) :
    t.memory = s.memory := by
  obtain ⟨-, rfl⟩ | ⟨-, -, rfl⟩ | ⟨w, e, -, -, -, rfl⟩ | ⟨w, i, -, -, hdecode, hexec⟩ := cycle_cases h
  · rfl
  · rfl
  · rfl
  · have hi : i.isExtension = false := (Instr.wellFormed_base hbase i).1 (decodeWord_wellFormed hdecode)
    exact exec_keepsMemory_of_not_isExtension hi s t hexec

@[simp] theorem tick_memory (s : State) : (tick s).memory = s.memory := by
  unfold tick; split <;> rfl

@[simp] theorem State.endWait_memory (s : State) (k : Nat) : (s.endWait k).memory = s.memory := by
  unfold State.endWait; split <;> rfl

@[simp] theorem keyDown_memory (k : Nat) (s : State) : (keyDown k s).memory = s.memory := by
  unfold keyDown
  dsimp only
  split_ifs
  · exact State.endWait_memory _ k
  · rfl
  · rfl

@[simp] theorem keyUp_memory (k : Nat) (s : State) : (keyUp k s).memory = s.memory := by
  unfold keyUp; split <;> rfl

@[simp] theorem togglePause_memory (s : State) : (togglePause s).memory = s.memory := by
  unfold togglePause; split <;> rfl

@[simp] theorem quit_memory (s : State) : (quit s).memory = s.memory := rfl

@[simp] theorem nextOp_snd_memory (s : State) : (nextOp s).2.memory = s.memory := by
  rw [nextOp_snd]

/-- In the base instruction set every host operation but Load keeps memory (R65). -/
theorem hostOp_memory_of_base {op : HostOp} {s t : State} (hbase : s.cfg.canonicalFx = false)
    (hload : ∀ rom, op ≠ .load rom) (h : hostOp op s = .next t) : t.memory = s.memory := by
  obtain ⟨rom, hop, -⟩ | ⟨-, hcycle⟩ | ⟨-, rfl⟩ | ⟨k, -, -, rfl⟩ | ⟨k, -, -, rfl⟩ | ⟨-, rfl⟩ | ⟨-, rfl⟩ :=
    hostOp_cases h
  · exact absurd hop (hload rom)
  · exact cycle_memory_of_base hbase hcycle
  · exact tick_memory s
  · exact keyDown_memory k s
  · exact keyUp_memory k s
  · exact togglePause_memory s
  · exact quit_memory s

/-- Settles O15: taking the operation off the list leaves memory and the parameters, and the operation, not a Load,
keeps memory as a whole. -/
theorem onlyLoadWritesMemoryInBaseSet : Obligations.OnlyLoadWritesMemoryInBaseSet := by
  intro s t hbase hstep hload a
  obtain ⟨-, hop⟩ := step_cases hstep
  have hbase' : (nextOp s).2.cfg.canonicalFx = false := by rw [nextOp_snd_cfg, hbase]
  rw [hostOp_memory_of_base hbase' hload hop, nextOp_snd_memory]

end Sys2Proof.Machine
end

section
/-! PROOFS. The encoding (30_encoding.md): the encoder and the decoder are inverse on the instruction set, the words
that no instruction has are the unrecognized ones of R77, and a cycle on such a word is the pre-advance alone (R76).
The families that a second field selects (R73) have lemmas of their own, and the decoder's are put together from
these. -/

namespace Sys2Proof

/-! ### Decode of encode (R70, R72, R82) -/

/-- `SHL_SEL` is no nibble of the other 8XYn rows (R75). -/
theorem shlNibble_cases (c : Config) : shlNibble c = 0x8#4 ∨ shlNibble c = 0xE#4 := by
  unfold shlNibble
  split
  · exact .inl rfl
  · exact .inr rfl

/-- N selects SHL at either `SHL_SEL` (R75). -/
theorem decodeAlu_of_shl {c : Config} {w : Word} (h : wordN w = shlNibble c) :
    decodeAlu c w = .ok (.shl (wordX w) (wordY w)) := by
  obtain hshl | hshl := shlNibble_cases c <;> simp [decodeAlu, h, hshl]

theorem decodeFx_of_extension {c : Config} {w : Word} (hfx : c.canonicalFx = true) (h : wordNN w ≠ 0x0A#8) :
    decodeFx c w = decodeFxExtension w := by
  rw [decodeFx, if_neg h, if_pos hfx]

/-- Every instruction of the set is what its word decodes to. -/
theorem decodeWord_encode {c : Config} {i : Instr} (h : i.wellFormed c = true) : decodeWord c (encode c i) = .ok i := by
  cases i with
  | cls | ret => simp [encode, decodeWord, decodeZero, wordH]
  | jp | call | ldI | jpV0 | seImm | sneImm | ldImm | addImm | rnd | seReg | sneReg | drw => simp [encode, decodeWord]
  | ldReg | orReg | andReg | xorReg | addReg | sub | shr | subn => simp [encode, decodeWord, decodeAlu]
  | shl x y => simp [encode, decodeWord, decodeAlu_of_shl]
  | skp | sknp => simp [encode, decodeWord, decodeKey]
  | ldK => simp [encode, decodeWord, decodeFx]
  | ldVxDt | ldDt | ldSt | addI | ldF | ldB | ldStore | ldLoad =>
    have hfx : c.canonicalFx = true := h
    simp [encode, decodeWord, decodeFx_of_extension hfx, decodeFxExtension]

/-- The decoder on a list looks at its first two bytes alone (R79). -/
theorem decode_encodeBytes_append (c : Config) (i : Instr) (rest : List Byte) :
    decode c (encodeBytes c i ++ rest) = (decodeWord c (encode c i)).map (·, rest) := by
  rw [← wordOfBytes_bytesOfWord (encode c i)]
  rfl

/-- Settles O1: the word by `decodeWord_encode`, and the bytes because they make up the word. -/
theorem decodeOfEncode : Obligations.DecodeOfEncode := by
  intro c i hi
  have hword : decodeWord c (encode c i) = .ok i := decodeWord_encode hi
  refine ⟨hword, fun rest => ?_⟩
  rw [decode_encodeBytes_append, hword]
  rfl

/-! ### Encode of decode (R72 to R74; log entry 23) -/

theorem encode_of_decodeZero {c : Config} {w : Word} {i : Instr} (h : decodeZero w = .ok i) : encode c i = w := by
  unfold decodeZero at h
  split_ifs at h with hcls hret
  · cases h; exact hcls.symm
  · cases h; exact hret.symm

theorem encode_of_decodeAlu {c : Config} {w : Word} {i : Instr} (hh : wordH w = 0x8#4) (h : decodeAlu c w = .ok i) :
    encode c i = w := by
  unfold decodeAlu at h
  dsimp only at h
  split at h
  case h_9 =>
    split_ifs at h with hshl
    cases h
    exact wordXYNOf_fields hh hshl
  all_goals
    rename_i hn
    cases h
    exact wordXYNOf_fields hh (BitVec.eq_of_toNat_eq hn)

theorem encode_of_decodeKey {c : Config} {w : Word} {i : Instr} (hh : wordH w = 0xE#4) (h : decodeKey w = .ok i) :
    encode c i = w := by
  unfold decodeKey at h
  split_ifs at h with hskp hsknp
  · cases h; exact wordXNNOf_fields hh hskp
  · cases h; exact wordXNNOf_fields hh hsknp

theorem encode_of_decodeFxExtension {c : Config} {w : Word} {i : Instr} (hh : wordH w = 0xF#4)
    (h : decodeFxExtension w = .ok i) : encode c i = w := by
  unfold decodeFxExtension at h
  dsimp only at h
  split at h
  case h_9 => cases h
  all_goals
    rename_i hnn
    cases h
    exact wordXNNOf_fields hh (BitVec.eq_of_toNat_eq hnn)

theorem encode_of_decodeFx {c : Config} {w : Word} {i : Instr} (hh : wordH w = 0xF#4) (h : decodeFx c w = .ok i) :
    encode c i = w := by
  unfold decodeFx at h
  split_ifs at h with hwait hfx
  · cases h; exact wordXNNOf_fields hh hwait
  · exact encode_of_decodeFxExtension hh h

/-- What a word decodes to has that word. -/
theorem encode_of_decodeWord {c : Config} {w : Word} {i : Instr} (h : decodeWord c w = .ok i) : encode c i = w := by
  unfold decodeWord at h
  split at h
  case h_1 => exact encode_of_decodeZero h
  case h_9 hh => exact encode_of_decodeAlu (BitVec.eq_of_toNat_eq hh) h
  case h_15 hh => exact encode_of_decodeKey (BitVec.eq_of_toNat_eq hh) h
  case h_16 =>
    have hh : wordH w = 0xF#4 := by
      have hlt := (wordH w).isLt
      simp only [imp_false] at *
      bv_omega
    exact encode_of_decodeFx hh h
  case h_6 hh | h_10 hh =>
    split_ifs at h with hn
    cases h
    exact wordXYNOf_fields (BitVec.eq_of_toNat_eq hh) hn
  case h_14 hh => cases h; exact wordXYNOf_fields (BitVec.eq_of_toNat_eq hh) rfl
  case h_2 hh | h_3 hh | h_11 hh | h_12 hh => cases h; exact wordNNNOf_fields (BitVec.eq_of_toNat_eq hh)
  case h_4 hh | h_5 hh | h_7 hh | h_8 hh | h_13 hh =>
    cases h
    exact wordXNNOf_fields (BitVec.eq_of_toNat_eq hh) rfl

/-- Decoding in both directions: the decoder gives an instruction exactly on its word, where the set holds it. -/
theorem decodeWord_eq_ok_iff {c : Config} {w : Word} {i : Instr} :
    decodeWord c w = .ok i ↔ encode c i = w ∧ i.wellFormed c = true := by
  constructor
  · exact fun h => ⟨encode_of_decodeWord h, decodeWord_wellFormed h⟩
  · rintro ⟨rfl, hi⟩
    exact decodeWord_encode hi

/-- Settles O2: the one direction of `decodeWord_eq_ok_iff`. -/
theorem encodeOfDecode : Obligations.EncodeOfDecode := fun _ _ _ => decodeWord_eq_ok_iff.1

/-- Settles O4: each word is the encoding of its instruction, and the configuration's set holds that. -/
theorem writtenOutWordsDecode : Obligations.WrittenOutWordsDecode := by
  unfold Obligations.WrittenOutWordsDecode
  simp only [decodeWord_eq_ok_iff]
  decide

/-! ### The unrecognized words (R77) -/

theorem decodeZero_rejects_iff (w : Word) :
    (∃ e, decodeZero w = .error e) ↔ w.toNat ≠ 0x00E0 ∧ w.toNat ≠ 0x00EE := by
  unfold decodeZero
  split_ifs with hcls hret
  · simp [hcls]
  · simp [hret]
  · simpa [BitVec.toNat_eq] using And.intro hcls hret

/-- The check of 5XY0 and of 9XY0 that N is 0. -/
theorem selectorZero_rejects_iff (w : Word) (i : Instr) (r : Rejection) :
    (∃ e, (if wordN w = 0#4 then Except.ok i else .error r) = .error e) ↔ w.toNat % 16 ≠ 0 := by
  rw [← wordN_toNat]
  split_ifs with hn
  · simp [hn]
  · simpa [BitVec.toNat_eq] using hn

theorem decodeAlu_rejects_iff (c : Config) (w : Word) :
    (∃ e, decodeAlu c w = .error e) ↔ 8 ≤ w.toNat % 16 ∧ w.toNat % 16 ≠ (shlNibble c).toNat := by
  rw [← wordN_toNat]
  unfold decodeAlu
  dsimp only
  split
  case h_9 =>
    split_ifs with hn
    · simp [hn]
    · have hge : 8 ≤ (wordN w).toNat := by simp only [imp_false] at *; omega
      simpa [hge, BitVec.toNat_eq] using hn
  all_goals
    rename_i hn
    simp [hn]

theorem decodeKey_rejects_iff (w : Word) :
    (∃ e, decodeKey w = .error e) ↔ w.toNat % 256 ∉ [0x9E, 0xA1] := by
  rw [← wordNN_toNat]
  unfold decodeKey
  split_ifs with hskp hsknp
  · simp [hskp]
  · simp [hsknp]
  · simpa [BitVec.toNat_eq] using And.intro hskp hsknp

theorem decodeFxExtension_rejects_iff (w : Word) :
    (∃ e, decodeFxExtension w = .error e) ↔
      w.toNat % 256 ∉ [0x07, 0x15, 0x18, 0x1E, 0x29, 0x33, 0x55, 0x65] := by
  rw [← wordNN_toNat]
  unfold decodeFxExtension
  dsimp only
  split
  case h_9 =>
    simp only [imp_false] at *
    simp [*]
  all_goals
    rename_i hnn
    simp [hnn]

theorem decodeFx_rejects_iff (c : Config) (w : Word) :
    (∃ e, decodeFx c w = .error e) ↔ w.toNat % 256 ≠ 0x0A ∧
      (c.canonicalFx = true → w.toNat % 256 ∉ [0x07, 0x15, 0x18, 0x1E, 0x29, 0x33, 0x55, 0x65]) := by
  rw [← decodeFxExtension_rejects_iff, ← wordNN_toNat]
  unfold decodeFx
  split_ifs with hwait hfx
  · simp [hwait]
  · have hne : (wordNN w).toNat ≠ 0x0A := by simpa [BitVec.toNat_eq] using hwait
    simp [hfx, hne]
  · simpa [hfx, BitVec.toNat_eq] using hwait

/-- R77's lines, with `SHL_SEL` by the model's name for it. -/
theorem decodeWord_rejects_iff (c : Config) (w : Word) :
    (∃ e, decodeWord c w = .error e) ↔
      (w.toNat < 0x1000 ∧ w.toNat ≠ 0x00E0 ∧ w.toNat ≠ 0x00EE) ∨
      (w.toNat / 4096 = 0x5 ∧ w.toNat % 16 ≠ 0) ∨
      (w.toNat / 4096 = 0x8 ∧ 0x8 ≤ w.toNat % 16 ∧ w.toNat % 16 ≠ (shlNibble c).toNat) ∨
      (w.toNat / 4096 = 0x9 ∧ w.toNat % 16 ≠ 0) ∨
      (w.toNat / 4096 = 0xE ∧ w.toNat % 256 ∉ [0x9E, 0xA1]) ∨
      (w.toNat / 4096 = 0xF ∧ w.toNat % 256 ≠ 0x0A ∧
        (c.canonicalFx = true → w.toNat % 256 ∉ [0x07, 0x15, 0x18, 0x1E, 0x29, 0x33, 0x55, 0x65])) := by
  have hlow : w.toNat < 0x1000 ↔ w.toNat / 4096 = 0 := by omega
  rw [hlow, ← wordH_toNat]
  unfold decodeWord
  split
  case h_1 hh => simp [decodeZero_rejects_iff, hh]
  case h_6 hh | h_10 hh => simp [selectorZero_rejects_iff, hh]
  case h_9 hh => simp [decodeAlu_rejects_iff, hh]
  case h_15 hh => simp [decodeKey_rejects_iff, hh]
  case h_16 =>
    have hh : (wordH w).toNat = 0xF := by
      have hlt := (wordH w).isLt
      simp only [imp_false] at *
      omega
    simp [decodeFx_rejects_iff, hh]
  all_goals
    rename_i hh
    simp [hh]

/-- Settles O3: `decodeWord_rejects_iff` at either selector of SHL. -/
theorem unrecognizedWordsExactly : Obligations.UnrecognizedWordsExactly := by
  intro c w
  rw [decodeWord_rejects_iff]
  unfold shlNibble
  cases c.shlSel <;> rfl

end Sys2Proof

namespace Sys2Proof.Machine

/-! ### A cycle on an unrecognized word (R76) -/

theorem cycle_of_rejected {s : State} {w : Word} {e : Rejection} (he : s.cycleEnabled = true)
    (hf : s.fetch = some w) (hd : decodeWord s.cfg w = .error e) : cycle s = .next s.advance := by
  rw [cycle, if_pos he, hf]
  simp only [execWord, hd]

/-- Settles O6: the two bytes at PC are the fetched word, and it is rejected. -/
theorem unrecognizedOpcodeIsNoOp : Obligations.UnrecognizedOpcodeIsNoOp := by
  intro s e henabled hpc hdecode
  have hfetch : s.fetch = some _ := State.fetch_eq_some.2 ⟨hpc, rfl⟩
  exact cycle_of_rejected henabled hfetch ((decode_pair_error _ _ _ _).1 hdecode)

end Sys2Proof.Machine
end

section
/-! PROOFS. The cycle (40_cycle.md): its gate, its fetch, and the step that runs the instruction at PC. For a placed
word there are two facts beside: the fetch reads back the two bytes that placing stored, and the configuration that
placing leaves decodes the word as the table's does. -/

namespace Sys2Proof

/-! ### Two configurations read a word alike (30_encoding.md R79) -/

theorem decodeAlu_agree {c c' : Config} {w : Word} {i j : Instr} :
    decodeAlu c w = .ok i → decodeAlu c' w = .ok j → i = j := by
  unfold decodeAlu
  dsimp only
  split
  case h_9 =>
    intro h h'
    split_ifs at h h'
    exact Except.ok.inj (h.symm.trans h')
  all_goals exact fun h h' => Except.ok.inj (h.symm.trans h')

theorem decodeFx_agree {c c' : Config} {w : Word} {i j : Instr} (h : decodeFx c w = .ok i)
    (h' : decodeFx c' w = .ok j) : i = j := by
  unfold decodeFx at h h'
  split_ifs at h h'
  · exact Except.ok.inj (h.symm.trans h')
  · exact Except.ok.inj (h.symm.trans h')

/-- Two configurations that both recognize a word read the same instruction from it: `SHL_SEL` and `CANONICAL_FX`
only choose which words are instructions. -/
theorem decodeWord_agree {c c' : Config} {w : Word} {i j : Instr} :
    decodeWord c w = .ok i → decodeWord c' w = .ok j → i = j := by
  unfold decodeWord
  split
  case h_9 => exact decodeAlu_agree
  case h_16 => exact decodeFx_agree
  all_goals exact fun h h' => Except.ok.inj (h.symm.trans h')

/-- `SHL_SEL` and `CANONICAL_FX` are all of the configuration that the decoder reads. -/
theorem decodeWord_congr {c c' : Config} (hfx : c.canonicalFx = c'.canonicalFx) (hshl : c.shlSel = c'.shlSel)
    (w : Word) : decodeWord c w = decodeWord c' w := by
  have hnibble : shlNibble c = shlNibble c' := by rw [shlNibble, hshl, shlNibble]
  simp only [decodeWord, decodeAlu, decodeFx, hnibble, hfx]

theorem recognized_iff (c : Config) (w : Word) : recognized c w = true ↔ ∃ i, decodeWord c w = .ok i := by
  unfold recognized
  split <;> rename_i h <;> simp [h]

/-! ### The table's word, and the configuration that enables it (log entry 16) -/

theorem decodeTableWord_eq_some {nbits w : Nat} {i : Instr} :
    decodeTableWord nbits w = some i ↔ decodeWord tableConfig (tableWord nbits w) = .ok i := by
  unfold decodeTableWord
  simp only [decode, wordOfBytes_bytesOfWord]
  cases decodeWord tableConfig (tableWord nbits w) <;> simp [Except.map]

@[simp] theorem enabling_legal (c : Config) (w : Word) : (enabling c w).legal = c.legal := by
  unfold enabling
  split_ifs <;> rfl

/-- A word the table reads as `i` is `i` under the configuration that enables it, whatever that was before. -/
theorem decodeWord_enabling {w : Word} {i : Instr} (h : decodeWord tableConfig w = .ok i) (c : Config) :
    decodeWord (enabling c w) w = .ok i := by
  unfold enabling
  by_cases hc : recognized c w = true
  · obtain ⟨j, hj⟩ := (recognized_iff c w).1 hc
    rw [if_pos hc, hj, decodeWord_agree hj h]
  · rw [if_neg hc, if_pos ((recognized_iff tableConfig w).2 ⟨i, h⟩), ← h]
    exact decodeWord_congr rfl rfl w

end Sys2Proof

namespace Sys2Proof.Machine

/-! ### The gate and the fetch of a cycle (R90, R91) -/

theorem cycle_of_gated {s : State} (h : ¬ s.cycleEnabled = true) : cycle s = .next s := by
  rw [cycle, if_neg h]

theorem cycle_of_fetch_none {s : State} (he : s.cycleEnabled = true) (hf : s.fetch = none) :
    cycle s = .next (s.faulted .pcOutOfRange) := by
  rw [cycle, if_pos he, hf]
  rfl

theorem cycle_of_fetch {s : State} {w : Word} (he : s.cycleEnabled = true) (hf : s.fetch = some w) :
    cycle s = execWord w s := by
  rw [cycle, if_pos he, hf]

/-- Settles O8: the gate is `cycleEnabled`; past it, the fetch decides. -/
theorem cycleGate : Obligations.CycleGate := by
  refine fun s => ⟨fun hgate => cycle_of_gated ?_, fun hrun hwait => ?_⟩
  · rw [State.cycleEnabled_iff]
    tauto
  · have henabled := (State.cycleEnabled_iff s).2 ⟨hrun, hwait⟩
    cases hf : s.fetch with
    | none => exact cycle_of_fetch_none henabled hf
    | some w => exact cycle_of_fetch henabled hf

/-- Settles O7: the clauses are the fetch's two outcomes, and the fetched word is its two bytes, high byte first. -/
theorem fetchIsBigEndianOrFaults : Obligations.FetchIsBigEndianOrFaults := by
  refine fun s henabled => ⟨fun hout => ?_, fun hin => ?_⟩
  · exact cycle_of_fetch_none henabled (State.fetch_eq_none.2 hout)
  · exact ⟨_, wordOfBytes_toNat _ _, cycle_of_fetch henabled (State.fetch_eq_some.2 ⟨hin, rfl⟩)⟩

/-! ### The step runs the instruction at PC (R93, R94, R97) -/

theorem cycle_of_fetchesInstr {s : State} {i : Instr} (h : s.FetchesInstr i) (hrun : s.state = .running)
    (hwait : s.wait = none) : cycle s = exec i s := by
  obtain ⟨w, hfetch, hdecode⟩ := (State.fetchesInstr_iff s i).1 h
  exact cycle_of_instr ((State.cycleEnabled_iff s).2 ⟨hrun, hwait⟩) hfetch hdecode

/-- Settles O5: the step is a Cycle in both cases, and taking it off the list leaves alone what a fetch reads. -/
theorem stepRunsDecodedInstruction : Obligations.StepRunsDecodedInstruction := by
  intro s i hi hlegal hrun hwait
  obtain ⟨hnil, hcons⟩ := stepTakesListedOperation s hlegal
  refine ⟨fun h => ?_, fun rest h => ?_⟩
  · exact (hnil h).trans (cycle_of_fetchesInstr hi hrun hwait)
  · exact (hcons _ rest h).trans (cycle_of_fetchesInstr (s := { s with inputs := rest }) hi hrun hwait)

/-! ### A placed word (log entry 15) -/

theorem placeWord_pc_lt (s : State) (w : Word) : (placeWord s w).pc.toNat + 1 < memSize := by
  simp only [placeWord]
  split_ifs with hout
  · decide
  · omega

/-- The fetch reads back the word that was placed. -/
theorem placeWord_fetch (s : State) (w : Word) : (placeWord s w).fetch = some w := by
  refine State.fetch_eq_some.2 ⟨placeWord_pc_lt s w, ?_⟩
  simp [placeWord, Memory.read_writeBytes, wordOfBytes_bytesOfWord]

theorem placeWord_legal (s : State) (w : Word) : (placeWord s w).cfg.legal = true := by
  simp only [placeWord, enabling_legal]
  split_ifs with hlegal
  · exact hlegal
  · decide

theorem placeWord_fetchesInstr {w : Word} {i : Instr} (h : decodeWord tableConfig w = .ok i) (s : State) :
    (placeWord s w).FetchesInstr i :=
  (State.fetchesInstr_iff _ i).2 ⟨w, placeWord_fetch s w, decodeWord_enabling h _⟩

/-- Settles O11: the placed state fetches the instruction, under a legal configuration and past the gate. -/
theorem placedWordRuns : Obligations.PlacedWordRuns := by
  intro s nbits w i h
  have hfetches := placeWord_fetchesInstr (decodeTableWord_eq_some.1 h) s
  exact (stepRunsDecodedInstruction _ i hfetches (placeWord_legal s _) rfl rfl).1 rfl

end Sys2Proof.Machine
end

section
/-! PROOFS. Control flow (41_control_flow.md). Each instruction has the one equation of the state it completes in; the
statements put these together with the encodings, which depend only on the shape of the word, and with the entries of
the call stack, of which a call adds one and a return takes that one away. -/

namespace Sys2Proof.Machine

/-! ### The word of an instruction, by its shape (30_encoding.md R70, R72) -/

theorem wordIs_of_encode_toNat {word : Nat} {i : Instr} (h : ∀ c, (encode c i).toNat = word) : WordIs word i := by
  intro c hi
  rw [← h c, BitVec.ofNat_toNat, BitVec.setWidth_eq]
  exact decodeWord_encode hi

/-- The words hNNN. -/
theorem wordIs_NNN (h : Nibble) {nnn : Addr} {i : Instr} (he : ∀ c, encode c i = wordNNNOf h nnn) :
    WordIs (4096 * h.toNat + nnn.toNat) i :=
  wordIs_of_encode_toNat fun c => by rw [he, wordNNNOf_toNat, Nat.mul_comm]

/-- The words hXNN. -/
theorem wordIs_XNN (h : Nibble) {x : Nibble} {nn : Byte} {i : Instr} (he : ∀ c, encode c i = wordXNNOf h x nn) :
    WordIs (4096 * h.toNat + 256 * x.toNat + nn.toNat) i :=
  wordIs_of_encode_toNat fun c => by rw [he, wordXNNOf_toNat]; omega

/-- The words hXYn, with the two nibbles that select the instruction first. -/
theorem wordIs_XYN (h n : Nibble) {x y : Nibble} {i : Instr} (he : ∀ c, encode c i = wordXYNOf h x y n) :
    WordIs (4096 * h.toNat + n.toNat + 256 * x.toNat + 16 * y.toNat) i :=
  wordIs_of_encode_toNat fun c => by rw [he, wordXYNOf_toNat]; omega

/-! ### The target of a jump (R103, R104, R109) -/

theorem zext16_eq_ofNat (nnn : Addr) : zext16 nnn = BitVec.ofNat 16 nnn.toNat := (BitVec.ofNat_toNat 16 nnn).symm

/-- The sum is at most 0xFF + 0xFFF, so 16 bits hold it (R109). -/
theorem zextReg_add_zext16_toNat (b : Byte) (nnn : Addr) : (zextReg b + zext16 nnn).toNat = b.toNat + nnn.toNat := by
  have hb := b.isLt
  have hnnn := nnn.isLt
  simp only [zextReg, zext16, BitVec.toNat_add, BitVec.toNat_setWidth]
  omega

/-- Settles O20: the jump overwrites the pre-advanced PC. -/
theorem jumpSetsPc : Obligations.JumpSetsPc := by
  refine fun nnn s => ⟨wordIs_NNN 0x1 fun _ => rfl, ?_⟩
  rw [← zext16_eq_ofNat]
  rfl

/-- Settles O26: PC is the 16-bit sum, which is the exact one. -/
theorem computedJumpIsNotWrapped : Obligations.ComputedJumpIsNotWrapped := fun nnn s =>
  ⟨wordIs_NNN 0xB fun _ => rfl, _, rfl, rfl, zextReg_add_zext16_toNat (s.reg 0#4) nnn⟩

/-! ### The skips (00_scope.md R11; 41_control_flow.md R105 to R108, R110) -/

/-- A skip comes on top of the pre-advance. -/
theorem State.skipIf_advance (s : State) (c : Bool) :
    s.advance.skipIf c = { s with pc := if c then s.pc + 4#16 else s.pc + 2#16 } := by
  cases c
  · rfl
  · simp [State.skipIf, State.advance, BitVec.add_assoc]

theorem State.skipIf_advance_beq (s : State) (a b : Byte) :
    s.advance.skipIf (a == b) = { s with pc := if a.toNat = b.toNat then s.pc + 4#16 else s.pc + 2#16 } := by
  simp only [State.skipIf_advance, beq_iff_eq, BitVec.toNat_inj]

theorem State.skipIf_advance_bne (s : State) (a b : Byte) :
    s.advance.skipIf (a != b) = { s with pc := if a.toNat = b.toNat then s.pc + 2#16 else s.pc + 4#16 } := by
  simp only [State.skipIf_advance, bne_iff_ne, ne_eq, ite_not, BitVec.toNat_inj]

/-- Settles O24: each is a skip on the comparison of VX with the immediate. -/
theorem skipOnImmediate : Obligations.SkipOnImmediate := fun x nn s =>
  ⟨wordIs_XNN 0x3 fun _ => rfl, wordIs_XNN 0x4 fun _ => rfl,
    congrArg _ (s.skipIf_advance_beq (s.reg x) nn), congrArg _ (s.skipIf_advance_bne (s.reg x) nn)⟩

theorem exec_seReg (x y : Nibble) (s : State) : exec (.seReg x y) s =
    .next { s with pc := if (s.reg x).toNat = (s.reg y).toNat then s.pc + 4#16 else s.pc + 2#16 } :=
  congrArg _ (s.skipIf_advance_beq (s.reg x) (s.reg y))

theorem exec_sneReg (x y : Nibble) (s : State) : exec (.sneReg x y) s =
    .next { s with pc := if (s.reg x).toNat = (s.reg y).toNat then s.pc + 2#16 else s.pc + 4#16 } :=
  congrArg _ (s.skipIf_advance_bne (s.reg x) (s.reg y))

/-- Settles O25: with X = Y the condition is on a register and itself. -/
theorem skipOnRegisters : Obligations.SkipOnRegisters := by
  refine fun x y s => ⟨wordIs_XYN 0x5 0x0 fun _ => rfl, wordIs_XYN 0x9 0x0 fun _ => rfl,
    exec_seReg x y s, exec_sneReg x y s, ?_, ?_⟩
  · rw [exec_seReg, if_pos rfl]
  · rw [exec_sneReg, if_pos rfl]

/-! ### The entries of the call stack (10_state.md R25) -/

theorem State.stackEntry_length_of_cons {s : State} {a : Word} {rest : List Word} (h : s.stack = a :: rest) :
    s.stackEntry rest.length = some a := by
  rw [State.stackEntry_of_cons h, if_pos rfl]

/-- The entries below the most recent one are those of the stack without it. -/
theorem State.stackEntry_of_lt {s t : State} {a : Word} {k : Nat} (h : s.stack = a :: t.stack) (hk : k < t.sp) :
    s.stackEntry k = t.stackEntry k :=
  (State.stackEntry_of_cons h k).trans (if_neg (Nat.ne_of_lt hk))

/-- The entry at SP - 1 is the head of the model's list. -/
theorem State.stack_eq_cons {s : State} {a : Word} {n : Nat} (hsp : s.sp = n + 1) (ha : s.stackEntry n = some a) :
    ∃ rest, s.stack = a :: rest ∧ rest.length = n := by
  obtain ⟨b, rest, hstack, hlen⟩ := List.length_eq_succ_iff.1 hsp
  have hb : some b = some a := by rw [← ha, ← hlen, State.stackEntry_length_of_cons hstack.symm]
  cases hb
  exact ⟨rest, hstack.symm, hlen⟩

/-! ### Call and return (R100 to R102, R104) -/

theorem exec_call_of_room {s : State} (h : s.sp < s.cfg.stackDepth) (nnn : Addr) :
    exec (.call nnn) s = .next { s with pc := zext16 nnn, stack := (s.pc + 2#16) :: s.stack } := by
  have hpush : s.advance.push s.advance.pc = some _ := State.push_eq_some.2 ⟨h, rfl⟩
  rw [exec, execCall, hpush]
  rfl

theorem exec_call_of_full {s : State} (h : s.cfg.stackDepth ≤ s.sp) (nnn : Addr) :
    exec (.call nnn) s = raiseFault .stackOverflow s := by
  have hpush : s.advance.push s.advance.pc = none := State.push_eq_none.2 h
  rw [exec, execCall, hpush]

theorem exec_ret_of_cons {s : State} {a : Word} {rest : List Word} (h : s.stack = a :: rest) :
    exec .ret s = .next { s with pc := a, stack := rest } := by
  have hpop : s.advance.pop = some (a, _) := State.pop_eq_some.2 ⟨rest, h, rfl⟩
  rw [exec, execRet, hpop]
  rfl

theorem exec_ret_of_empty {s : State} (h : s.sp = 0) : exec .ret s = raiseFault .stackUnderflow s := by
  have hpop : s.advance.pop = none := State.pop_eq_none.2 h
  rw [exec, execRet, hpop]

/-- Settles O21: the return address becomes the most recent entry, and the older entries are the stack below it. -/
theorem callPushesReturnAddress : Obligations.CallPushesReturnAddress := by
  refine fun nnn s => ⟨wordIs_NNN 0x2 fun _ => rfl, fun hroom => ?_, fun hfull => exec_call_of_full hfull.ge nnn⟩
  rw [← zext16_eq_ofNat]
  exact ⟨_, exec_call_of_room hroom nnn, rfl, rfl, State.stackEntry_length_of_cons rfl,
    fun k hk => State.stackEntry_of_lt rfl hk⟩

/-- Settles O22: the entry at SP - 1 is taken off, and the ones that remain are the stack below it. -/
theorem returnPopsReturnAddress : Obligations.ReturnPopsReturnAddress := by
  refine fun s => ⟨wordIs_of_encode_toNat fun _ => rfl, fun n a hsp ha => ?_, fun hempty => exec_ret_of_empty hempty⟩
  obtain ⟨rest, hstack, rfl⟩ := State.stack_eq_cons hsp ha
  exact ⟨_, exec_ret_of_cons hstack, rfl, rfl, fun k hk => (State.stackEntry_of_lt hstack hk).symm⟩

/-- Settles O23: the return takes off the entry that the call pushed, the address after the call. -/
theorem callThenReturnRestores : Obligations.CallThenReturnRestores := fun nnn _ hroom =>
  ⟨_, exec_call_of_room hroom nnn, exec_ret_of_cons rfl⟩

end Sys2Proof.Machine
end

section
/-! PROOFS. Registers, arithmetic and the index (42_register_alu.md). Every instruction of this file but ANNN ends in one
of two writes, of VX alone or of VX and VF (`WriteFR`), so the frame is shown once for each; what is left of a statement
is the value written. In the base set ANNN alone writes I, with 12 bits, which gives the invariant of R135. -/

namespace Sys2Proof.Machine

/-! ### I and the timers under the instructions of the base set (R135; 60_exceptions.md R222) -/

/-- The base invariant speaks of the parameters, I and the timers; a state with the same ones meets it too. -/
theorem State.BaseInv.of_unchanged {s t : State} (h : s.BaseInv) (hcfg : t.cfg = s.cfg) (hi : t.i = s.i)
    (hdt : t.dt = s.dt) (hst : t.st = s.st) : t.BaseInv where
  base := by rw [hcfg]; exact h.base
  i := by rw [hi]; exact h.i
  dt := by rw [hdt]; exact h.dt
  st := by rw [hst]; exact h.st

theorem State.BaseInv.advance {s : State} (h : s.BaseInv) : s.advance.BaseInv := h.of_unchanged rfl rfl rfl rfl

theorem State.BaseInv.setReg {s : State} (h : s.BaseInv) (x : Nibble) (b : Byte) : (s.setReg x b).BaseInv :=
  h.of_unchanged rfl rfl rfl rfl

theorem State.BaseInv.skipIf {s : State} (h : s.BaseInv) (c : Bool) : (s.skipIf c).BaseInv := by
  apply h.of_unchanged <;> simp

theorem State.BaseInv.writeFR {s : State} (h : s.BaseInv) (x : Nibble) (flag res : Byte) :
    (s.writeFR x flag res).BaseInv := by
  apply h.of_unchanged <;> simp

/-- The operand of ANNN has 12 bits, whatever I was (R132, R135). -/
theorem State.BaseInv.withI {s : State} (h : s.BaseInv) (nnn : Addr) : State.BaseInv { s with i := zext16 nnn } where
  base := h.base
  i := by
    have hnnn := nnn.isLt
    simp only [zext16, BitVec.toNat_setWidth]
    omega
  dt := h.dt
  st := h.st

/-- Where the outcome is a next state, that state meets the base invariant. -/
def BaseInvAfter (o : Host.Outcome State Fault Refusal) : Prop := ∀ t, o = .next t → t.BaseInv

theorem baseInvAfter_next {t : State} (h : t.BaseInv) : BaseInvAfter (.next t) := by
  rintro _ ⟨⟩
  exact h

theorem raiseFault_baseInvAfter {s : State} (h : s.BaseInv) (code : FaultCode) : BaseInvAfter (raiseFault code s) :=
  baseInvAfter_next (h.of_unchanged rfl rfl rfl rfl)

theorem execRet_baseInvAfter {s : State} (h : s.BaseInv) : BaseInvAfter (execRet s) := by
  unfold execRet
  split
  case h_1 => exact raiseFault_baseInvAfter h _
  case h_2 a t hpop =>
    obtain ⟨rest, -, rfl⟩ := State.pop_eq_some.1 hpop
    exact baseInvAfter_next (h.of_unchanged rfl rfl rfl rfl)

theorem execCall_baseInvAfter {s : State} (h : s.BaseInv) (nnn : Addr) : BaseInvAfter (execCall nnn s) := by
  unfold execCall
  split
  case h_1 => exact raiseFault_baseInvAfter h _
  case h_2 t hpush =>
    obtain ⟨-, rfl⟩ := State.push_eq_some.1 hpush
    exact baseInvAfter_next (h.of_unchanged rfl rfl rfl rfl)

/-- A sprite is read through I, which the draw leaves where it was (43_display.md R152). -/
theorem execDrw_baseInvAfter {s : State} (h : s.BaseInv) (x y n : Nibble) : BaseInvAfter (execDrw x y n s) := by
  unfold execDrw
  split
  · exact baseInvAfter_next (h.of_unchanged rfl rfl rfl rfl)
  · exact raiseFault_baseInvAfter h _

theorem execSkp_baseInvAfter {s : State} (h : s.BaseInv) (x : Nibble) : BaseInvAfter (execSkp x s) := by
  unfold execSkp
  split
  · exact raiseFault_baseInvAfter h _
  · exact baseInvAfter_next (h.advance.skipIf _)

theorem execSknp_baseInvAfter {s : State} (h : s.BaseInv) (x : Nibble) : BaseInvAfter (execSknp x s) := by
  unfold execSknp
  split
  · exact raiseFault_baseInvAfter h _
  · exact baseInvAfter_next (h.advance.skipIf _)

theorem execLdK_baseInvAfter {s : State} (h : s.BaseInv) (x : Nibble) : BaseInvAfter (execLdK x s) := by
  unfold execLdK
  split <;> exact baseInvAfter_next (h.of_unchanged rfl rfl rfl rfl)

/-- The other instructions that write I or a timer belong to the extension (46_fx_extension.md R182 to R185). -/
theorem exec_baseInvAfter {s : State} (h : s.BaseInv) {i : Instr} (hi : i.isExtension = false) :
    BaseInvAfter (exec i s) := by
  cases i with
  | ldI nnn => exact baseInvAfter_next (h.advance.withI nnn)
  | ret => exact execRet_baseInvAfter h
  | call nnn => exact execCall_baseInvAfter h nnn
  | drw x y n => exact execDrw_baseInvAfter h x y n
  | skp x => exact execSkp_baseInvAfter h x
  | sknp x => exact execSknp_baseInvAfter h x
  | ldK x => exact execLdK_baseInvAfter h x
  | seImm | sneImm | seReg | sneReg => exact baseInvAfter_next (h.advance.skipIf _)
  | addReg | sub | shr | subn | shl => exact baseInvAfter_next (h.advance.writeFR _ _ _)
  | ldImm | addImm | ldReg | orReg | andReg | xorReg => exact baseInvAfter_next (h.advance.setReg _ _)
  | cls | jp | jpV0 | rnd => exact baseInvAfter_next (h.of_unchanged rfl rfl rfl rfl)
  | ldVxDt | ldDt | ldSt | addI | ldF | ldB | ldStore | ldLoad => cases hi

/-! ### I and the timers under the host operations -/

/-- With `CANONICAL_FX` false no word decodes to an instruction of the extension. -/
theorem cycle_baseInv {s t : State} (h : s.BaseInv) (hcycle : cycle s = .next t) : t.BaseInv := by
  obtain ⟨-, rfl⟩ | ⟨-, -, rfl⟩ | ⟨w, e, -, -, -, rfl⟩ | ⟨w, i, -, -, hdecode, hexec⟩ := cycle_cases hcycle
  · exact h
  · exact h.of_unchanged rfl rfl rfl rfl
  · exact h.advance
  · have hi : i.isExtension = false := (Instr.wellFormed_base h.base i).1 (decodeWord_wellFormed hdecode)
    exact exec_baseInvAfter h hi t hexec

/-- A Load writes neither I nor a timer (70_reset_and_hazards.md R242). -/
theorem load_baseInv {s : State} (h : s.BaseInv) (rom : List Byte) : (load rom s).BaseInv := by
  unfold load
  split <;> exact h.of_unchanged rfl rfl rfl rfl

/-- A timer at 0 stays there (60_exceptions.md R220). -/
theorem tick_baseInv {s : State} (h : s.BaseInv) : (tick s).BaseInv := by
  unfold tick
  split
  · refine h.of_unchanged rfl rfl ?_ ?_
    · simp [h.dt, countDown]
    · simp [h.st, countDown]
  · exact h

theorem State.BaseInv.endWait {s : State} (h : s.BaseInv) (k : Nat) : (s.endWait k).BaseInv := by
  unfold State.endWait
  split
  · exact h
  · exact h.of_unchanged rfl rfl rfl rfl

theorem State.BaseInv.withKey {s : State} (h : s.BaseInv) (key : Vector Bool 16) :
    State.BaseInv { s with key := key } :=
  h.of_unchanged rfl rfl rfl rfl

theorem keyDown_baseInv {s : State} (h : s.BaseInv) (k : Nat) : (keyDown k s).BaseInv := by
  unfold keyDown
  dsimp only
  split_ifs
  · exact (h.withKey _).endWait k
  · exact h.withKey _
  · exact h

theorem keyUp_baseInv {s : State} (h : s.BaseInv) (k : Nat) : (keyUp k s).BaseInv := by
  unfold keyUp
  split
  · exact h.withKey _
  · exact h

theorem togglePause_baseInv {s : State} (h : s.BaseInv) : (togglePause s).BaseInv := by
  unfold togglePause
  split <;> exact h.of_unchanged rfl rfl rfl rfl

theorem quit_baseInv {s : State} (h : s.BaseInv) : (quit s).BaseInv := h.of_unchanged rfl rfl rfl rfl

theorem hostOp_baseInv {op : HostOp} {s t : State} (h : s.BaseInv) (hop : hostOp op s = .next t) : t.BaseInv := by
  obtain ⟨rom, -, rfl⟩ | ⟨-, hcycle⟩ | ⟨-, rfl⟩ | ⟨k, -, -, rfl⟩ | ⟨k, -, -, rfl⟩ | ⟨-, rfl⟩ | ⟨-, rfl⟩ :=
    hostOp_cases hop
  · exact load_baseInv h rom
  · exact cycle_baseInv h hcycle
  · exact tick_baseInv h
  · exact keyDown_baseInv h k
  · exact keyUp_baseInv h k
  · exact togglePause_baseInv h
  · exact quit_baseInv h

theorem nextOp_snd_baseInv {s : State} (h : s.BaseInv) : (nextOp s).2.BaseInv := by
  rw [nextOp_snd]
  exact h.of_unchanged rfl rfl rfl rfl

/-- Settles O14: the operation is taken off the list, of which the invariant does not speak, and then applied. -/
theorem stepKeepsBaseInvariant : Obligations.StepKeepsBaseInvariant := by
  intro s t h hstep
  obtain ⟨-, hop⟩ := step_cases hstep
  exact hostOp_baseInv (nextOp_snd_baseInv h) hop

/-! ### The frame of the two writes (R120; 10_state.md R21, R22) -/

theorem State.regsKeptBut_setReg {s t : State} (h : ∀ r, t.reg r = s.reg r) (x : Nibble) (b : Byte) :
    s.RegsKeptBut (t.setReg x b) [x] := fun r hr => by
  rw [State.reg_setReg_of_ne t (List.ne_of_not_mem_cons hr), h]

theorem State.writesOnly_setReg (s : State) (x : Nibble) (b : Byte) : s.WritesOnly (s.advance.setReg x b) x :=
  ⟨rfl, State.regsKeptBut_setReg s.reg_advance x b⟩

theorem State.onlyRegisters_writeFR (s : State) (x : Nibble) (flag res : Byte) :
    s.OnlyRegisters (s.advance.writeFR x flag res) := by
  unfold State.OnlyRegisters State.writeFR
  split <;> rfl

/-- `WriteFR` under both orders and for every X, F included. -/
theorem State.writesResultAndFlag_writeFR (s : State) (x : Nibble) {flag res : Byte} {f r : Nat}
    (hres : res.toNat = r) (hflag : flag.toNat = f) :
    s.WritesResultAndFlag (s.advance.writeFR x flag res) x r f := by
  refine ⟨s.onlyRegisters_writeFR x flag res, fun k hk => ?_, fun hx => ⟨?_, ?_⟩, fun hx => ?_⟩
  · have hkx : k ≠ x := List.ne_of_not_mem_cons hk
    have hkF : k ≠ vF := List.ne_of_not_mem_cons (List.not_mem_of_not_mem_cons hk)
    rw [State.reg_writeFR, if_neg hkx, if_neg hkF, State.reg_advance]
  · rw [State.reg_writeFR, if_pos rfl, if_neg fun hlast => hx hlast.1, hres]
  · rw [State.reg_writeFR, if_neg hx.symm, if_pos rfl, hflag]
  · subst hx
    rw [State.reg_writeFR, if_pos rfl, State.advance_cfg]
    cases s.cfg.vfOrder
    · exact hres
    · exact hflag

/-! ### The flags as numbers (R127 to R131) -/

theorem flagByte_toNat (b : Bool) : (flagByte b).toNat = if b then 1 else 0 := by
  cases b <;> rfl

theorem carryFlag_toNat (a b : Byte) : (carryFlag a b).toNat = if 255 < a.toNat + b.toNat then 1 else 0 := by
  simp only [carryFlag, flagByte_toNat, decide_eq_true_eq]

theorem noBorrowFlag_toNat (a b : Byte) : (noBorrowFlag a b).toNat = if b.toNat ≤ a.toNat then 1 else 0 := by
  simp only [noBorrowFlag, flagByte_toNat, decide_eq_true_eq]

/-- A bit as a flag is that binary digit of the value. -/
theorem flagByte_getLsbD_toNat (a : Byte) (k : Nat) : (flagByte (a.getLsbD k)).toNat = a.toNat / 2 ^ k % 2 := by
  rw [flagByte_toNat, BitVec.getLsbD, Nat.testBit_eq_decide_div_mod_eq]
  simp only [decide_eq_true_eq]
  split_ifs <;> omega

theorem shrFlag_toNat (a : Byte) : (shrFlag a).toNat = a.toNat % 2 := by
  rw [shrFlag, flagByte_getLsbD_toNat, pow_zero, Nat.div_one]

/-- Bit 7 is the highest of a byte. -/
theorem shlFlag_toNat (a : Byte) : (shlFlag a).toNat = a.toNat / 128 := by
  have ha := a.isLt
  rw [shlFlag, flagByte_getLsbD_toNat]
  omega

/-! ### The results as numbers (R127 to R131) -/

theorem byte_sub_toNat (a b : Byte) : (a - b).toNat = (256 + a.toNat - b.toNat) % 256 := by
  have hb := b.isLt
  rw [BitVec.toNat_sub]
  omega

theorem byte_shiftRight_one_toNat (a : Byte) : (a >>> 1).toNat = a.toNat / 2 := by
  rw [BitVec.toNat_ushiftRight, Nat.shiftRight_eq_div_pow, pow_one]

theorem byte_shiftLeft_one_toNat (a : Byte) : (a <<< 1).toNat = 2 * a.toNat % 256 := by
  rw [BitVec.toNat_shiftLeft, Nat.shiftLeft_eq, pow_one, Nat.mul_comm]

/-! ### Arithmetic with a flag (R127 to R131) -/

/-- Settles O29: `WriteFR` with the carry and the sum. -/
theorem addRegistersWithCarry : Obligations.AddRegistersWithCarry := fun x _ s =>
  ⟨wordIs_XYN 0x8 0x4 fun _ => rfl, _, rfl,
    s.writesResultAndFlag_writeFR x (BitVec.toNat_add _ _) (carryFlag_toNat _ _)⟩

/-- Settles O30: `WriteFR` with the no-borrow flag and the difference; 8XY7 swaps the operands. -/
theorem subtractWithNoBorrow : Obligations.SubtractWithNoBorrow := fun x _ s =>
  ⟨wordIs_XYN 0x8 0x5 fun _ => rfl, wordIs_XYN 0x8 0x7 fun _ => rfl,
    ⟨_, rfl, s.writesResultAndFlag_writeFR x (byte_sub_toNat _ _) (noBorrowFlag_toNat _ _)⟩,
    ⟨_, rfl, s.writesResultAndFlag_writeFR x (byte_sub_toNat _ _) (noBorrowFlag_toNat _ _)⟩⟩

/-- The shift left is the one instruction whose word depends on the configuration (30_encoding.md R75). -/
theorem decodeWord_shl {c : Config} {n : Nat} (hn : (shlNibble c).toNat = n) (x y : Nibble) :
    decodeWord c (BitVec.ofNat 16 (0x8000 + 256 * x.toNat + 16 * y.toNat + n)) = .ok (.shl x y) := by
  have hword : (encode c (.shl x y)).toNat = 0x8000 + 256 * x.toNat + 16 * y.toNat + n := by
    rw [encode, wordXYNOf_toNat, hn, show (0x8 : Nibble).toNat = 8 from rfl]
    omega
  rw [← hword, BitVec.ofNat_toNat, BitVec.setWidth_eq]
  exact decodeWord_encode (Instr.wellFormed_of_not_isExtension rfl c)

/-- Settles O31: `WriteFR` with the bit shifted out and the half or the double of VX; VY is not read. -/
theorem shiftsByOne : Obligations.ShiftsByOne := by
  refine fun x y s => ⟨wordIs_XYN 0x8 0x6 fun _ => rfl, fun c => decodeWord_shl ?_ x y, ⟨_, rfl, ?_⟩, ⟨_, rfl, ?_⟩⟩
  · unfold shlNibble
    cases c.shlSel <;> rfl
  · exact s.writesResultAndFlag_writeFR x (byte_shiftRight_one_toNat _) (shrFlag_toNat _)
  · exact s.writesResultAndFlag_writeFR x (byte_shiftLeft_one_toNat _) (shlFlag_toNat _)

/-! ### Loads, logic and the sum without a flag (R121 to R126) -/

/-- Settles O27: each writes VX alone, and the logic is bitwise. -/
theorem loadsAndLogic : Obligations.LoadsAndLogic := by
  refine fun x y nn s => ⟨⟨wordIs_XNN 0x6 fun _ => rfl, wordIs_XYN 0x8 0x0 fun _ => rfl,
    wordIs_XYN 0x8 0x1 fun _ => rfl, wordIs_XYN 0x8 0x2 fun _ => rfl, wordIs_XYN 0x8 0x3 fun _ => rfl⟩,
    ?_, ?_, ?_, ?_, ?_⟩
  · exact ⟨_, rfl, s.writesOnly_setReg x nn, State.reg_setReg_self _ x nn⟩
  · exact ⟨_, rfl, s.writesOnly_setReg x (s.reg y), State.reg_setReg_self _ x _⟩
  · exact ⟨_, rfl, s.writesOnly_setReg x _, fun k => by rw [State.reg_setReg_self, BitVec.getLsbD_or]⟩
  · exact ⟨_, rfl, s.writesOnly_setReg x _, fun k => by rw [State.reg_setReg_self, BitVec.getLsbD_and]⟩
  · exact ⟨_, rfl, s.writesOnly_setReg x _, fun k => by rw [State.reg_setReg_self, BitVec.getLsbD_xor]⟩

/-- Settles O28: VX alone is written, VF only where X is F. -/
theorem addImmediateWithoutFlag : Obligations.AddImmediateWithoutFlag := by
  refine fun x nn s => ⟨wordIs_XNN 0x7 fun _ => rfl, _, rfl, s.writesOnly_setReg x _, ?_⟩
  rw [State.reg_setReg_self]
  exact BitVec.toNat_add (s.reg x) nn

/-! ### The index and the random byte (R132, R133) -/

/-- Settles O32: the 12-bit operand is extended with zeros. -/
theorem loadIndex : Obligations.LoadIndex := by
  refine fun nnn s => ⟨wordIs_NNN 0xA fun _ => rfl, ?_⟩
  rw [← zext16_eq_ofNat]
  rfl

/-- Settles O33: one draw of the oracle (log entry 11), and VX alone is written; nothing is said of the byte drawn, which
stays free (10_state.md R43). -/
theorem randomByteMasked : Obligations.RandomByteMasked := by
  refine fun x nn s => ⟨wordIs_XNN 0xC fun _ => rfl, _, rfl, rfl, State.regsKeptBut_setReg (fun _ => rfl) x _, ?_⟩
  rw [State.reg_setReg_self]
  refine ⟨fun k => BitVec.getLsbD_and, fun k hk => ?_⟩
  rw [BitVec.getLsbD_and, hk, Bool.and_false]

end Sys2Proof.Machine
end

section
/-! PROOFS. Display (43_display.md). A draw in range XORs the list `spriteCells` in order. How often a cell stands in
that list is its number of sprite hits, and what the statements say of a cell or of VF is read off these counts. A
second draw at the same origin XORs the same list, so each cell is inverted an even number of times in all. -/

namespace Sys2Proof.Machine

/-! ### Clear (R150) -/

/-- Settles O34: the clear framebuffer lists no cell. -/
theorem clearScreen : Obligations.ClearScreen := fun _ =>
  ⟨wordIs_of_encode_toNat fun _ => rfl, _, rfl, rfl, fun _ _ => Framebuffer.lit_nil _⟩

/-! ### The two outcomes of a draw (R152, R157) -/

theorem wordIs_drw (x y n : Nibble) : WordIs (0xD000 + 256 * x.toNat + 16 * y.toNat + n.toNat) (.drw x y n) :=
  wordIs_of_encode_toNat fun _ => by
    rw [encode, wordXYNOf_toNat, show (0xD : Nibble).toNat = 13 from rfl]
    omega

/-- The cells that the draw DXYN at `s` XORs, in order (R151, R152). -/
def State.drawCells (s : State) (x y n : Nibble) : List Nat :=
  spriteCells s (s.originX x) (s.originY y) n.toNat 0

/-- The framebuffer and the collision flag after the draw DXYN at `s` (R152). -/
def State.drawCanvas (s : State) (x y n : Nibble) : Canvas :=
  (s.drawCells x y n).foldl xorCell { fb := s.fb, collision := false }

/-- The state in which the draw DXYN at `s` completes: VF is written last (R153). -/
def State.drawn (s : State) (x y n : Nibble) : State :=
  State.setReg { s.advance with fb := (s.drawCanvas x y n).fb } vF (flagByte (s.drawCanvas x y n).collision)

theorem exec_drw (x y n : Nibble) (s : State) : exec (.drw x y n) s = execDrw x y n s := rfl

theorem dataAccessOk_of_drawInRange {s : State} {n : Nibble} (h : n = 0#4 ∨ s.i.toNat + n.toNat - 1 < 4096) :
    s.dataAccessOk n.toNat = true := by
  rw [State.dataAccessOk_iff, memSize]
  obtain rfl | h := h
  · exact Or.inl rfl
  · omega

theorem exec_drw_of_inRange {s : State} {n : Nibble} (x y : Nibble)
    (h : n = 0#4 ∨ s.i.toNat + n.toNat - 1 < 4096) : exec (.drw x y n) s = .next (s.drawn x y n) := by
  rw [exec_drw, execDrw, if_pos (dataAccessOk_of_drawInRange h), drawRows_eq]
  rfl

/-- Settles O37: the check covers all N addresses and stands before the drawing. -/
theorem drawRangeIsChecked : Obligations.DrawRangeIsChecked := by
  intro x y n s hn hrange
  have hbad : ¬ s.dataAccessOk n.toNat = true := by
    rw [State.dataAccessOk_iff, memSize]
    omega
  rw [exec_drw, execDrw, if_neg hbad, raiseFault_eq]

/-! ### What a draw leaves unchanged (R156) -/

theorem State.drawn_eq (s : State) (x y n : Nibble) :
    s.drawn x y n = { s with pc := s.pc + 2#16, fb := (s.drawn x y n).fb, v := (s.drawn x y n).v } := rfl

theorem State.drawn_regsKeptBut (s : State) (x y n : Nibble) : s.RegsKeptBut (s.drawn x y n) [vF] :=
  State.regsKeptBut_setReg (fun _ => rfl) vF _

theorem State.drawn_reg_of_ne (s : State) {r : Nibble} (hr : r ≠ vF) (x y n : Nibble) :
    (s.drawn x y n).reg r = s.reg r :=
  s.drawn_regsKeptBut x y n r (by simpa using hr)

/-! ### The cells after a draw (R151, R152) -/

/-- Every cell, on the screen or not, is inverted once for each time the draw names it. -/
theorem lit_drawn (s : State) (x y n : Nibble) (k : Nat) :
    Framebuffer.lit (s.drawn x y n).fb k = xor ((s.drawCells x y n).count k % 2 == 1) (Framebuffer.lit s.fb k) :=
  foldl_xorCell_lit _ _ k

/-- The two descriptions of the column rule agree on the screen (R154). -/
theorem targetColumn_beq (s : State) (x : Nibble) (col : Nat) {cx : Nat} (hx : cx < s.cfg.dispW) :
    (targetColumn s.cfg (s.originX x) col == some cx) = columnFallsOn s x col cx := by
  unfold targetColumn columnFallsOn State.originX
  cases s.cfg.hEdge with
  | wrap => rfl
  | clip =>
    dsimp only
    split_ifs with hout
    · exact (beq_false_of_ne (by omega)).symm
    · rfl

/-- The hits on a cell: none off the sprite's rows, else the sprite bits 1 of its row that fall on its column. -/
theorem spriteHits_eq (s : State) (x y n : Nibble) (cx cy : Nat) :
    spriteHits s x y n cx cy =
      if s.originY y ≤ cy ∧ cy < s.originY y + n.toNat then
        ((List.range 8).filter fun col =>
          columnFallsOn s x col cx && spriteBit (s.dataByte (cy - s.originY y)) col).length
      else 0 := by
  unfold spriteHits spriteRow State.originY
  dsimp only
  split_ifs <;> rfl

/-- The draw names a cell of the screen as often as sprite bits 1 fall on it. -/
theorem State.drawCells_count (s : State) (x y n : Nibble) {cx cy : Nat} (hx : cx < s.cfg.dispW)
    (hy : cy < s.cfg.dispH) :
    (s.drawCells x y n).count (cellIndex s.cfg cx cy) = spriteHits s x y n cx cy := by
  rw [State.drawCells, spriteCells_count (by omega) _ _ _ _ hx hy, spriteHits_eq]
  simp only [targetColumn_beq s x _ hx, Nat.add_zero]

theorem pixel_drawn (s : State) (x y n : Nibble) {cx cy : Nat} (hx : cx < s.cfg.dispW) (hy : cy < s.cfg.dispH) :
    (s.drawn x y n).pixel cx cy = xor (spriteHits s x y n cx cy % 2 == 1) (s.pixel cx cy) := by
  rw [← s.drawCells_count x y n hx hy]
  exact lit_drawn s x y n _

theorem mem_drawCells_on_screen {s : State} (hw : 1 ≤ s.cfg.dispW) {x y n : Nibble} {k : Nat}
    (h : k ∈ s.drawCells x y n) : ∃ cx cy, cx < s.cfg.dispW ∧ cy < s.cfg.dispH ∧ k = cellIndex s.cfg cx cy :=
  spriteCells_on_screen hw h

theorem State.drawCells_lt {s : State} (hw : 1 ≤ s.cfg.dispW) {x y n : Nibble} :
    ∀ k ∈ s.drawCells x y n, k < s.cfg.dispW * s.cfg.dispH := by
  intro k hk
  obtain ⟨cx, cy, hx, hy, rfl⟩ := mem_drawCells_on_screen hw hk
  exact cellIndex_lt hx hy

/-- No cell outside the screen changes (R156). -/
theorem lit_drawn_off_screen {s : State} (hw : 1 ≤ s.cfg.dispW) (x y n : Nibble) {k : Nat}
    (hk : s.cfg.dispW * s.cfg.dispH ≤ k) : Framebuffer.lit (s.drawn x y n).fb k = Framebuffer.lit s.fb k := by
  have hcount : (s.drawCells x y n).count k = 0 := List.count_eq_zero_of_not_mem fun hmem => by
    have := State.drawCells_lt hw k hmem
    omega
  rw [lit_drawn, hcount]
  exact Bool.false_xor _

/-! ### VF after a draw (R153) -/

theorem flagByte_eq_one_iff (b : Bool) : flagByte b = 1#8 ↔ b = true := by cases b <;> decide

theorem flagByte_eq_zero_iff (b : Bool) : flagByte b = 0#8 ↔ ¬ b = true := by cases b <;> decide

theorem State.drawn_vF (s : State) (x y n : Nibble) :
    (s.drawn x y n).reg vF = flagByte (s.drawCanvas x y n).collision :=
  State.reg_setReg_self _ _ _

/-- Some cell of the screen collides in the draw DXYN at `s` (R153). -/
def State.DrawCollides (s : State) (x y n : Nibble) : Prop :=
  ∃ cx cy, cx < s.cfg.dispW ∧ cy < s.cfg.dispH ∧ cellCollides s x y n cx cy

/-- The flag is set where some cell of the screen collides: no other cell is named. -/
theorem State.drawCanvas_collision_iff {s : State} (hw : 1 ≤ s.cfg.dispW) (x y n : Nibble) :
    (s.drawCanvas x y n).collision = true ↔ s.DrawCollides x y n := by
  have hcell {cx cy : Nat} (hx : cx < s.cfg.dispW) (hy : cy < s.cfg.dispH) := s.drawCells_count x y n hx hy
  rw [State.drawCanvas, foldl_xorCell_collision]
  constructor
  · rintro (hfalse | ⟨k, hhit, hlit⟩)
    · cases hfalse
    · obtain ⟨cx, cy, hx, hy, rfl⟩ := mem_drawCells_on_screen hw (List.one_le_count_iff.1 hhit)
      rw [hcell hx hy] at hhit hlit
      exact ⟨cx, cy, hx, hy, hhit, hlit⟩
  · rintro ⟨cx, cy, hx, hy, hhit, hlit⟩
    rw [← hcell hx hy] at hhit hlit
    exact Or.inr ⟨_, hhit, hlit⟩

theorem State.drawn_vF_eq_one_iff {s : State} (hw : 1 ≤ s.cfg.dispW) (x y n : Nibble) :
    (s.drawn x y n).reg vF = 1#8 ↔ s.DrawCollides x y n := by
  rw [State.drawn_vF, flagByte_eq_one_iff, State.drawCanvas_collision_iff hw]

theorem State.drawn_vF_eq_zero_iff {s : State} (hw : 1 ≤ s.cfg.dispW) (x y n : Nibble) :
    (s.drawn x y n).reg vF = 0#8 ↔ ¬ s.DrawCollides x y n := by
  rw [State.drawn_vF, flagByte_eq_zero_iff, State.drawCanvas_collision_iff hw]

/-- Settles O35: out of range by the check of R157; in range by the counts of the cells that the draw names. -/
theorem drawXorsSprite : Obligations.DrawXorsSprite := by
  intro x y n s hw _
  refine ⟨wordIs_drw x y n, fun ⟨hn, hrange⟩ => drawRangeIsChecked x y n s hn hrange, fun hrange =>
    ⟨_, exec_drw_of_inRange x y hrange, s.drawn_eq x y n, s.drawn_regsKeptBut x y n,
      fun _ _ hx hy => pixel_drawn s x y n hx hy, fun _ hk => lit_drawn_off_screen hw x y n hk,
      (State.drawn_vF_eq_one_iff hw x y n).2, (State.drawn_vF_eq_zero_iff hw x y n).2⟩⟩

/-! ### One sprite bit for each cell (R151, R154) -/

/-- A screen on which no two bits of a sprite row fall on one cell: at least 8 wide, or one that clips (R154). -/
def State.OneBitPerCell (s : State) : Prop := 8 ≤ s.cfg.dispW ∨ (s.cfg.hEdge = .clip ∧ 1 ≤ s.cfg.dispW)

/-- Going `col` columns on from `ox`, round a screen at least as wide, is undone by going back. -/
theorem wrapped_column_eq_iff {w ox cx col : Nat} (hox : ox < w) (hcx : cx < w) (hcol : col < w) :
    (ox + col) % w = cx ↔ col = (cx + w - ox) % w := by
  rw [Nat.add_mod_eq_ite, Nat.mod_eq_of_lt hox, Nat.mod_eq_of_lt hcol]
  rcases Nat.lt_or_ge cx ox with hback | hback
  · rw [Nat.mod_eq_of_lt (by omega : cx + w - ox < w)]
    split_ifs <;> omega
  · rw [show cx + w - ox = cx - ox + w by omega, Nat.add_mod_right, Nat.mod_eq_of_lt (by omega : cx - ox < w)]
    split_ifs <;> omega

/-- The sprite column found by going back from the screen column is the only one that falls on it. -/
theorem columnFallsOn_eq {s : State} (h : s.OneBitPerCell) (x : Nibble) {col cx : Nat}
    (hcx : cx < s.cfg.dispW) (hcol : col < 8) :
    columnFallsOn s x col cx = (col == spriteColumn s x cx) := by
  rw [Bool.eq_iff_iff, beq_iff_eq]
  unfold columnFallsOn spriteColumn
  cases hedge : s.cfg.hEdge with
  | wrap =>
    have hwide : 8 ≤ s.cfg.dispW := Or.resolve_right h fun hclip => by simp [hedge] at hclip
    simpa using wrapped_column_eq_iff (Nat.mod_lt _ (by omega)) hcx (by omega)
  | clip =>
    simp only [beq_iff_eq]
    split_ifs <;> omega

/-- Of the numbers below `m` at most one is `c`. -/
theorem length_filter_range_eq (m c : Nat) (p : Nat → Bool) :
    ((List.range m).filter fun k => k == c && p k).length = if c < m ∧ p c = true then 1 else 0 := by
  rw [← List.filter_filter, List.filter_beq, List.length_replicate, (List.nodup_range.filter p).count]
  simp only [List.mem_filter, List.mem_range]

/-- The bit on a cell: none off the sprite's rows, else its row's bit at the one column that falls on it. -/
theorem spriteBitAt_iff (s : State) (x y n : Nibble) (cx cy : Nat) :
    spriteBitAt s x y n cx cy = true ↔
      (s.originY y ≤ cy ∧ cy < s.originY y + n.toNat) ∧ spriteColumn s x cx < 8 ∧
        spriteBit (s.dataByte (cy - s.originY y)) (spriteColumn s x cx) = true := by
  unfold spriteBitAt spriteRow State.originY
  dsimp only
  split_ifs with hrow
  · simp [hrow, spriteBit, State.dataByte, State.dataAddress]
  · simp [hrow]

theorem spriteHits_eq_of_oneBit {s : State} (h : s.OneBitPerCell) (x y n : Nibble) {cx : Nat}
    (hcx : cx < s.cfg.dispW) (cy : Nat) :
    spriteHits s x y n cx cy = if spriteBitAt s x y n cx cy = true then 1 else 0 := by
  have hcolumns : ∀ col ∈ List.range 8,
      (columnFallsOn s x col cx && spriteBit (s.dataByte (cy - s.originY y)) col) =
        (col == spriteColumn s x cx && spriteBit (s.dataByte (cy - s.originY y)) col) := fun col hcol => by
    rw [columnFallsOn_eq h x hcx (List.mem_range.1 hcol)]
  simp only [spriteHits_eq, spriteBitAt_iff, List.filter_congr hcolumns, length_filter_range_eq, ← ite_and]

theorem cellCollides_iff_of_oneBit {s : State} (h : s.OneBitPerCell) (x y n : Nibble) {cx cy : Nat}
    (hx : cx < s.cfg.dispW) :
    cellCollides s x y n cx cy ↔ spriteBitAt s x y n cx cy = true ∧ s.pixel cx cy = true := by
  rw [cellCollides, spriteHits_eq_of_oneBit h x y n hx]
  cases spriteBitAt s x y n cx cy <;> cases s.pixel cx cy <;> decide

/-- Settles O36: O35's counts are 0 or 1 here. -/
theorem drawXorsOneBitPerCell : Obligations.DrawXorsOneBitPerCell := by
  intro x y n s hone _ hrange
  have hw : 1 ≤ s.cfg.dispW := by omega
  have hcollides : s.DrawCollides x y n ↔
      ∃ cx cy, cx < s.cfg.dispW ∧ cy < s.cfg.dispH ∧ spriteBitAt s x y n cx cy = true ∧ s.pixel cx cy = true :=
    exists_congr fun cx => exists_congr fun cy => and_congr_right fun hx => and_congr_right fun _ =>
      cellCollides_iff_of_oneBit hone x y n hx
  refine ⟨_, exec_drw_of_inRange x y hrange, s.drawn_eq x y n, s.drawn_regsKeptBut x y n,
    fun cx cy hx hy => ?_, ?_, ?_⟩
  · rw [pixel_drawn s x y n hx hy, spriteHits_eq_of_oneBit hone x y n hx]
    cases spriteBitAt s x y n cx cy <;> cases s.pixel cx cy <;> rfl
  · exact fun hc => (State.drawn_vF_eq_one_iff hw x y n).2 (hcollides.2 hc)
  · exact fun hc => (State.drawn_vF_eq_zero_iff hw x y n).2 (mt hcollides.1 hc)

/-! ### Two draws at one origin (R158; log entry 21) -/

theorem spriteCells_congr {s t : State} (hcfg : t.cfg = s.cfg) (hbyte : ∀ k, t.dataByte k = s.dataByte k)
    (ox oy n row : Nat) : spriteCells t ox oy n row = spriteCells s ox oy n row := by
  induction n generalizing row with
  | zero => rfl
  | succ n ih => rw [spriteCells, spriteCells, hcfg, hbyte, ih]

/-- With the origin not read from VF, the second draw XORs the cells of the first. -/
theorem State.drawn_drawCells (s : State) {x y : Nibble} (hx : x ≠ vF) (hy : y ≠ vF) (n : Nibble) :
    (s.drawn x y n).drawCells x y n = s.drawCells x y n := by
  have hox : (s.drawn x y n).originX x = s.originX x := by
    rw [State.originX, s.drawn_reg_of_ne hx]
    rfl
  have hoy : (s.drawn x y n).originY y = s.originY y := by
    rw [State.originY, s.drawn_reg_of_ne hy]
    rfl
  rw [State.drawCells, hox, hoy]
  exact spriteCells_congr (s := s) (t := s.drawn x y n) rfl (fun _ => rfl) _ _ _ _

theorem State.drawn_spriteHits (s : State) {x y : Nibble} (hx : x ≠ vF) (hy : y ≠ vF) (n : Nibble) {cx cy : Nat}
    (hcx : cx < s.cfg.dispW) (hcy : cy < s.cfg.dispH) :
    spriteHits (s.drawn x y n) x y n cx cy = spriteHits s x y n cx cy := by
  rw [← s.drawCells_count x y n hcx hcy, ← s.drawn_drawCells hx hy n]
  exact (State.drawCells_count (s.drawn x y n) x y n hcx hcy).symm

theorem State.drawn_fb_wf {s : State} (hw : 1 ≤ s.cfg.dispW) (x y n : Nibble)
    (hwf : Framebuffer.wf s.fb (s.cfg.dispW * s.cfg.dispH)) :
    Framebuffer.wf (s.drawn x y n).fb (s.cfg.dispW * s.cfg.dispH) :=
  foldl_xorCell_wf (State.drawCells_lt hw) hwf

/-- Both framebuffers are canonical, and each cell is inverted twice as often as the draw names it. -/
theorem State.drawn_drawn_fb {s : State} (hw : 1 ≤ s.cfg.dispW) {x y : Nibble} (hx : x ≠ vF) (hy : y ≠ vF) (n : Nibble)
    (hwf : Framebuffer.wf s.fb (s.cfg.dispW * s.cfg.dispH)) : ((s.drawn x y n).drawn x y n).fb = s.fb := by
  have hwf' := State.drawn_fb_wf (s := s.drawn x y n) hw x y n (State.drawn_fb_wf hw x y n hwf)
  refine Framebuffer.eq_of_lit_eq hwf'.1 hwf.1 fun k => ?_
  rw [lit_drawn, lit_drawn, s.drawn_drawCells hx hy n, ← Bool.xor_assoc, Bool.xor_self, Bool.false_xor]

/-- A cell collides in the second draw where it is lit between the two, or hit twice by the second alone. -/
theorem State.drawn_cellCollides_iff (s : State) {x y : Nibble} (hx : x ≠ vF) (hy : y ≠ vF) (n : Nibble) {cx cy : Nat}
    (hcx : cx < s.cfg.dispW) (hcy : cy < s.cfg.dispH) :
    cellCollides (s.drawn x y n) x y n cx cy ↔
      2 ≤ spriteHits s x y n cx cy ∨ (spriteHits s x y n cx cy = 1 ∧ s.pixel cx cy = false) := by
  rw [cellCollides, s.drawn_spriteHits hx hy n hcx hcy, pixel_drawn s x y n hcx hcy]
  match spriteHits s x y n cx cy with
  | 0 => simp
  | 1 => cases s.pixel cx cy <;> decide
  | hits + 2 => exact iff_of_true ⟨by omega, by omega⟩ (Or.inl (by omega))

theorem State.drawn_vF_of_no_hits {s : State} (hw : 1 ≤ s.cfg.dispW) {x y n : Nibble}
    (h : ∀ cx cy, cx < s.cfg.dispW → cy < s.cfg.dispH → spriteHits s x y n cx cy = 0) :
    (s.drawn x y n).reg vF = 0#8 := by
  rw [State.drawn_vF_eq_zero_iff hw]
  rintro ⟨cx, cy, hx, hy, hhit, -⟩
  rw [h cx cy hx hy] at hhit
  omega

/-- Settles O38: the second draw is a draw of the same cells from the state between the two. -/
theorem doubleDrawRestores : Obligations.DoubleDrawRestores := by
  intro x y n s hx hy hw _ hwf hrange
  refine ⟨_, _, exec_drw_of_inRange x y hrange, exec_drw_of_inRange (s := s.drawn x y n) x y hrange,
    State.drawn_drawn_fb hw hx hy n hwf, ?_, fun hnone => ⟨State.drawn_vF_of_no_hits hw hnone, ?_⟩⟩
  · rw [State.drawn_vF_eq_one_iff (s := s.drawn x y n) hw]
    exact exists_congr fun cx => exists_congr fun cy => and_congr_right fun hcx => and_congr_right fun hcy =>
      s.drawn_cellCollides_iff hx hy n hcx hcy
  · refine State.drawn_vF_of_no_hits (s := s.drawn x y n) hw fun cx cy hcx hcy => ?_
    rw [s.drawn_spriteHits hx hy n hcx hcy, hnone cx cy hcx hcy]

end Sys2Proof.Machine
end

section
/-! PROOFS. Keypad (44_keypad.md). A key index has a flag exactly up to 15, and that split is the one between skip and
fault. A key event in RUNNING writes one flag; where a key wait is pending, KeyDown writes the waiting register and
ends the wait besides. -/

namespace Sys2Proof.Machine

/-! ### The word of an instruction that NN selects (30_encoding.md R70, R73) -/

/-- The words hXnn, with the nibble and the byte that select the instruction first. -/
theorem wordIs_XNN_selector (h : Nibble) (nn : Byte) {x : Nibble} {i : Instr}
    (he : ∀ c, encode c i = wordXNNOf h x nn) : WordIs (4096 * h.toNat + nn.toNat + 256 * x.toNat) i := by
  rw [Nat.add_right_comm]
  exact wordIs_XNN h he

/-! ### The keypad flags (10_state.md R29) -/

theorem State.keyFlag_eq_none_iff (s : State) (k : Nat) : s.keyFlag k = none ↔ 15 < k := by
  rw [State.keyFlag, Vector.getElem?_eq_none_iff]
  omega

theorem State.exists_keyFlag (s : State) {k : Nat} (h : k ≤ 15) : ∃ pressed, s.keyFlag k = some pressed :=
  Option.ne_none_iff_exists'.1 (mt (s.keyFlag_eq_none_iff k).1 (by omega))

/-- A write changes exactly the flag it names. -/
theorem State.keyFlag_of_key_set {s t : State} {k : Nat} {b : Bool} (hk : k < 16)
    (h : t.key = s.key.setIfInBounds k b) (j : Nat) : t.keyFlag j = if j = k then some b else s.keyFlag j := by
  rw [State.keyFlag, h, Vector.getElem?_setIfInBounds, if_pos hk]
  simp only [eq_comm, State.keyFlag]

/-! ### The skips (R170, R171) -/

theorem exec_skp_of_keyFlag {s : State} {x : Nibble} {pressed : Bool} (h : s.keyFlag (s.reg x).toNat = some pressed) :
    exec (.skp x) s = .next { s with pc := if pressed then s.pc + 4#16 else s.pc + 2#16 } := by
  rw [exec, execSkp, h, ← State.skipIf_advance]

theorem exec_sknp_of_keyFlag {s : State} {x : Nibble} {pressed : Bool} (h : s.keyFlag (s.reg x).toNat = some pressed) :
    exec (.sknp x) s = .next { s with pc := if pressed then s.pc + 2#16 else s.pc + 4#16 } := by
  rw [exec, execSknp, h]
  dsimp only
  rw [State.skipIf_advance]
  cases pressed <;> rfl

theorem exec_skp_of_no_keyFlag {s : State} {x : Nibble} (h : s.keyFlag (s.reg x).toNat = none) :
    exec (.skp x) s = raiseFault .keyIndexOutOfRange s := by
  rw [exec, execSkp, h]

theorem exec_sknp_of_no_keyFlag {s : State} {x : Nibble} (h : s.keyFlag (s.reg x).toNat = none) :
    exec (.sknp x) s = raiseFault .keyIndexOutOfRange s := by
  rw [exec, execSknp, h]

/-- Settles O39: VX has a flag up to 15 and none above. -/
theorem skipOnKey : Obligations.SkipOnKey := by
  refine fun x s => ⟨wordIs_XNN_selector 0xE 0x9E fun _ => rfl, wordIs_XNN_selector 0xE 0xA1 fun _ => rfl,
    fun pressed hflag => ⟨exec_skp_of_keyFlag hflag, exec_sknp_of_keyFlag hflag⟩, s.exists_keyFlag, fun habove => ?_⟩
  have hflag := (s.keyFlag_eq_none_iff _).2 habove
  exact ⟨exec_skp_of_no_keyFlag hflag, exec_sknp_of_no_keyFlag hflag⟩

/-! ### The key wait (R172, R173, R175) -/

theorem exec_ldK_of_wait {s : State} (h : s.cfg.fx0aMode = .wait) (x : Nibble) :
    exec (.ldK x) s = .next { s with pc := s.pc + 2#16, wait := some x } := by
  rw [exec, execLdK, h]
  rfl

theorem exec_ldK_of_noop {s : State} (h : s.cfg.fx0aMode = .noop) (x : Nibble) :
    exec (.ldK x) s = .next { s with pc := s.pc + 2#16 } := by
  rw [exec, execLdK, h]
  rfl

/-- Settles O40: one clause for each `FX0A_MODE` (R172, R175). -/
theorem keyWaitBegins : Obligations.KeyWaitBegins := fun x _ =>
  ⟨wordIs_XNN_selector 0xF 0x0A fun _ => rfl, fun hmode => exec_ldK_of_wait hmode x,
    fun hmode => exec_ldK_of_noop hmode x⟩

theorem State.takesKeys_iff (s : State) : s.takesKeys = true ↔ s.state = .running ∨ s.state = .paused := by
  simp [State.takesKeys]

theorem hostOp_keyDown {k : Nat} (hk : k < 16) (s : State) : hostOp (.keyDown k) s = .next (keyDown k s) := if_pos hk

theorem hostOp_keyUp {k : Nat} (hk : k < 16) (s : State) : hostOp (.keyUp k) s = .next (keyUp k s) := if_pos hk

/-- Nothing is read of the key's flag before: a held key ends the wait too, once it is pressed again (R173). -/
theorem keyDown_of_wait {s : State} {x : Nibble} (hrun : s.state = .running) (hwait : s.wait = some x) (k : Nat) :
    keyDown k s =
      State.setReg { s with key := s.key.setIfInBounds k true, wait := none } x (BitVec.ofNat 8 k) := by
  rw [keyDown, if_pos (s.takesKeys_iff.2 (.inl hrun)), if_pos hrun, State.endWait, hwait]
  rfl

theorem keyUp_of_takesKeys {s : State} (h : s.takesKeys = true) (k : Nat) :
    keyUp k s = { s with key := s.key.setIfInBounds k false } := if_pos h

/-- Settles O41: KeyDown is a write of one flag, of VX and of the wait, and KeyUp of one flag alone. -/
theorem keyDownEndsKeyWait : Obligations.KeyDownEndsKeyWait := by
  intro s x k hk hrun hwait
  have hup := keyUp_of_takesKeys (s.takesKeys_iff.2 (.inl hrun)) k
  refine ⟨⟨_, hostOp_keyDown hk s, ?_⟩, _, hostOp_keyUp hk s, ?_, ?_⟩
  · rw [keyDown_of_wait hrun hwait]
    refine ⟨rfl, State.keyFlag_of_key_set hk rfl, ?_, State.regsKeptBut_setReg (fun _ => rfl) x _⟩
    rw [State.reg_setReg_self, BitVec.toNat_ofNat, Nat.mod_eq_of_lt (by omega)]
  · rw [hup]
  · rw [hup]
    exact hwait

end Sys2Proof.Machine
end

section
/-! PROOFS. The extension (46_fx_extension.md). FX33, FX55 and FX65 stand behind one range check of the last address,
and FX33 and FX55 store a list of bytes at I; the check and the store are settled once, and what is left of a statement
is the list stored. FX65 after FX55 reads that list back. -/

namespace Sys2Proof.Machine

/-! ### The timers (R181 to R183) -/

/-- Settles O42: FX07 is a write of VX, FX15 and FX18 are each a write of one timer. -/
theorem timerTransfers : Obligations.TimerTransfers := fun x s =>
  ⟨wordIs_XNN_selector 0xF 0x07 fun _ => rfl, wordIs_XNN_selector 0xF 0x15 fun _ => rfl,
    wordIs_XNN_selector 0xF 0x18 fun _ => rfl,
    ⟨_, rfl, s.writesOnly_setReg x s.dt, State.reg_setReg_self _ x s.dt⟩, rfl, rfl⟩

/-! ### The index (R184, R185) -/

theorem zextReg_toNat (b : Byte) : (zextReg b).toNat = b.toNat :=
  BitVec.toNat_setWidth_of_le (by decide)

/-- The last glyph starts at 75, so the address never wraps. -/
theorem glyphAddress_toNat (b : Byte) : (glyphAddress b).toNat = 5 * (b.toNat % 16) := by
  rw [glyphAddress, fontBase, BitVec.toNat_ofNat]
  omega

/-- Settles O43: I alone is written, with the sum in 16 bits or with the glyph's address. -/
theorem indexArithmetic : Obligations.IndexArithmetic := by
  refine fun x s => ⟨wordIs_XNN_selector 0xF 0x1E fun _ => rfl, wordIs_XNN_selector 0xF 0x29 fun _ => rfl,
    ⟨_, rfl, rfl, ?_⟩, ⟨_, rfl, rfl, glyphAddress_toNat (s.reg x)⟩⟩
  rw [BitVec.toNat_add, zextReg_toNat]

/-! ### The range check of I..I+n (20_memory.md R53; R186 to R188) -/

theorem State.dataAccessOk_succ_iff (s : State) (n : Nat) :
    s.dataAccessOk (n + 1) = true ↔ s.i.toNat + n < 4096 := by
  rw [State.dataAccessOk_iff, memSize]
  omega

theorem checked_of_inRange {s : State} {n : Nat} (h : s.i.toNat + n < 4096) (t : State) :
    (if s.dataAccessOk (n + 1) then .next t else raiseFault .memOutOfRange s) = .next t :=
  if_pos ((s.dataAccessOk_succ_iff n).2 h)

theorem checked_of_outOfRange {s : State} {n : Nat} (h : 4096 ≤ s.i.toNat + n) (t : State) :
    (if s.dataAccessOk (n + 1) then .next t else raiseFault .memOutOfRange s) = raiseFault .memOutOfRange s :=
  if_neg (mt (s.dataAccessOk_succ_iff n).1 h.not_gt)

/-! ### Memory after a store at I (20_memory.md R56, R60) -/

theorem State.read_storeData_of_getElem? (s : State) {bs : List Byte} {k : Nat} {b : Byte} (h : bs[k]? = some b) :
    Memory.read (s.storeData bs).memory (s.dataAddress k) = b := by
  rw [State.storeData_memory, Memory.read_writeBytes, State.dataAddress, if_pos (Nat.le_add_right _ _),
    Nat.add_sub_cancel_left, h, Option.getD_some]

theorem State.read_storeData_of_ne (s : State) {bs : List Byte} {a : Nat}
    (h : ∀ j, j < bs.length → a ≠ s.dataAddress j) :
    Memory.read (s.storeData bs).memory a = Memory.read s.memory a := by
  rw [State.storeData_memory, Memory.read_writeBytes]
  split
  case isTrue hle =>
    have hpast : bs.length ≤ a - s.i.toNat := by
      by_contra hlt
      exact h (a - s.i.toNat) (by omega) (Nat.add_sub_of_le hle).symm
    rw [List.getElem?_eq_none hpast, Option.getD_none]
  case isFalse => rfl

/-! ### The decimal digits (R186) -/

/-- A digit fits in a byte, so it is stored as it is. -/
theorem State.read_storeData_digit (s : State) {bs : List Byte} {k d : Nat} (hd : d < 10)
    (h : bs[k]? = some (BitVec.ofNat 8 d)) :
    (Memory.read (s.storeData bs).memory (s.dataAddress k)).toNat = d := by
  rw [s.read_storeData_of_getElem? h, BitVec.toNat_ofNat, Nat.mod_eq_of_lt (by omega)]

/-- Settles O44: behind the check of I + 2, a store of the list of the three digits. -/
theorem storeDecimalDigits : Obligations.StoreDecimalDigits := by
  refine fun x s => ⟨wordIs_XNN_selector 0xF 0x33 fun _ => rfl,
    fun hin => ⟨_, checked_of_inRange hin _, rfl, ?_, ?_, ?_, fun a ha => ?_⟩,
    fun hout => checked_of_outOfRange hout _⟩
  · have hv := (s.reg x).isLt
    exact State.read_storeData_digit s.advance (by omega) rfl
  · exact State.read_storeData_digit s.advance (Nat.mod_lt _ (by decide)) rfl
  · exact State.read_storeData_digit s.advance (Nat.mod_lt _ (by decide)) rfl
  · exact State.read_storeData_of_ne s.advance ha

/-! ### The register transfers (R187, R188) -/

theorem State.regsUpTo_getElem? (s : State) {x r : Nibble} (h : r.toNat ≤ x.toNat) :
    (s.regsUpTo x)[r.toNat]? = some (s.reg r) := by
  have hr : r.toNat < (s.regsUpTo x).length := by
    rw [State.regsUpTo_length]
    omega
  rw [List.getElem?_eq_getElem hr, State.regsUpTo_getElem, BitVec.ofNat_toNat, BitVec.setWidth_eq]

/-- Settles O45: behind the check of I + X, a store of the list V0..VX. -/
theorem storeRegisters : Obligations.StoreRegisters := by
  refine fun x s => ⟨wordIs_XNN_selector 0xF 0x55 fun _ => rfl,
    fun hin => ⟨_, checked_of_inRange hin _, rfl, fun r hr => ?_, fun a ha => ?_⟩,
    fun hout => checked_of_outOfRange hout _⟩
  · exact State.read_storeData_of_getElem? s.advance (s.regsUpTo_getElem? hr)
  · refine State.read_storeData_of_ne s.advance fun j hj => ha j ?_
    rw [State.regsUpTo_length] at hj
    exact Nat.lt_succ_iff.1 hj

/-- Settles O46: behind the check of I + X, each register up to VX is read from memory and no other is written. -/
theorem loadRegisters : Obligations.LoadRegisters := by
  refine fun x s => ⟨wordIs_XNN_selector 0xF 0x65 fun _ => rfl,
    fun hin => ⟨_, checked_of_inRange hin _, rfl, fun r hr => ?_, fun r hr => ?_⟩,
    fun hout => checked_of_outOfRange hout _⟩
  · rw [State.reg_loadRegsUpTo, if_pos hr]
    rfl
  · rw [State.reg_loadRegsUpTo, if_neg hr.not_ge, State.reg_advance]

/-- Settles O47: FX55 leaves I in place, so FX65 passes the same check and reads the addresses FX55 has written. -/
theorem storeThenLoadRestoresRegisters : Obligations.StoreThenLoadRestoresRegisters := by
  intro x s v2 hin
  obtain ⟨-, hstore, -⟩ := storeRegisters x s
  obtain ⟨t, hexec, hframe, hstored, -⟩ := hstore hin
  have hi : t.i = s.i := by rw [hframe]
  obtain ⟨-, hload, -⟩ := loadRegisters x { t with v := v2 }
  obtain ⟨u, hexec', -, hloaded, hkept⟩ := hload (by rwa [hi])
  refine ⟨t, u, hexec, hexec', fun r hr => ?_, hkept⟩
  rw [hloaded r hr, ← hstored r hr, State.dataAddress, State.dataAddress, hi]

end Sys2Proof.Machine
end

section
/-! PROOFS. Faults, timers and the controller (60_exceptions.md). Which fault an instruction or a cycle raises is a
function of the state before it, `faultOf` and `cycleFault`: where that is a code, the outcome is the state before with
the code recorded, and where it is none, `fault` and `state` are kept. The statements on faults and on the trace event
are read off from this. -/

namespace Sys2Proof.Machine

/-! ### The fault of an instruction (R200) -/

/-- The fault of `n` accesses at I, I + 1, … (20_memory.md R53). -/
def State.accessFault (s : State) (n : Nat) : Option FaultCode :=
  if s.dataAccessOk n then none else some .memOutOfRange

/-- The fault that `exec i` raises at `s`, by the table of R200; `exec_endsWith` ties it to `exec`. -/
def State.faultOf (s : State) : Instr → Option FaultCode
  | .call _ => if s.cfg.stackDepth ≤ s.sp then some .stackOverflow else none
  | .ret => if s.sp = 0 then some .stackUnderflow else none
  | .drw _ _ n => s.accessFault n.toNat
  | .ldB _ => s.accessFault 3
  | .ldStore x | .ldLoad x => s.accessFault (x.toNat + 1)
  | .skp x | .sknp x => if 15 < (s.reg x).toNat then some .keyIndexOutOfRange else none
  | _ => none

/-- The outcome at `s` that belongs to a fault, or to none: with a fault, it is taken at `s` (R203, R204); without, the
next state has the `fault` and the `state` of `s`. -/
def State.EndsWith (s : State) : Option FaultCode → Host.Outcome State Fault Refusal → Prop
  | some code, o => o = raiseFault code s
  | none, o => ∃ t, o = .next t ∧ t.fault = s.fault ∧ t.state = s.state

theorem endsWith_next {s t : State} (hfault : t.fault = s.fault) (hstate : t.state = s.state) :
    s.EndsWith none (.next t) := ⟨t, rfl, hfault, hstate⟩

theorem checked_endsWith {s t : State} {n : Nat} (hfault : t.fault = s.fault) (hstate : t.state = s.state) :
    s.EndsWith (s.accessFault n) (if s.dataAccessOk n then .next t else raiseFault .memOutOfRange s) := by
  unfold State.accessFault
  split
  · exact endsWith_next hfault hstate
  · exact rfl

theorem exec_call_endsWith (nnn : Addr) (s : State) : s.EndsWith (s.faultOf (.call nnn)) (exec (.call nnn) s) := by
  rw [State.faultOf]
  split
  case isTrue hfull => exact exec_call_of_full hfull nnn
  case isFalse hroom =>
    rw [exec_call_of_room (Nat.lt_of_not_le hroom)]
    exact endsWith_next rfl rfl

theorem exec_ret_endsWith (s : State) : s.EndsWith (s.faultOf .ret) (exec .ret s) := by
  rw [State.faultOf]
  split
  case isTrue hempty => exact exec_ret_of_empty hempty
  case isFalse hlive =>
    obtain ⟨a, rest, hstack⟩ := List.exists_cons_of_length_pos (Nat.pos_of_ne_zero hlive)
    rw [exec_ret_of_cons hstack]
    exact endsWith_next rfl rfl

/-- The two key skips fault alike: VX has a flag exactly up to 15 (44_keypad.md R170, R171). -/
theorem keySkip_endsWith {s : State} {x : Nibble} {o : Host.Outcome State Fault Refusal}
    (habove : s.keyFlag (s.reg x).toNat = none → o = raiseFault .keyIndexOutOfRange s)
    (hflag : ∀ pressed, s.keyFlag (s.reg x).toNat = some pressed → s.EndsWith none o) :
    s.EndsWith (if 15 < (s.reg x).toNat then some .keyIndexOutOfRange else none) o := by
  split
  case isTrue h => exact habove ((s.keyFlag_eq_none_iff _).2 h)
  case isFalse h =>
    obtain ⟨pressed, hpressed⟩ := s.exists_keyFlag (Nat.le_of_not_lt h)
    exact hflag pressed hpressed

theorem exec_skp_endsWith (x : Nibble) (s : State) : s.EndsWith (s.faultOf (.skp x)) (exec (.skp x) s) :=
  keySkip_endsWith exec_skp_of_no_keyFlag fun pressed hflag => by
    rw [exec_skp_of_keyFlag hflag]
    exact endsWith_next rfl rfl

theorem exec_sknp_endsWith (x : Nibble) (s : State) : s.EndsWith (s.faultOf (.sknp x)) (exec (.sknp x) s) :=
  keySkip_endsWith exec_sknp_of_no_keyFlag fun pressed hflag => by
    rw [exec_sknp_of_keyFlag hflag]
    exact endsWith_next rfl rfl

theorem execLdK_endsWith (x : Nibble) (s : State) : s.EndsWith none (execLdK x s) := by
  unfold execLdK
  split <;> exact endsWith_next rfl rfl

/-- Every instruction ends as `faultOf` says. -/
theorem exec_endsWith (i : Instr) (s : State) : s.EndsWith (s.faultOf i) (exec i s) := by
  cases i with
  | call nnn => exact exec_call_endsWith nnn s
  | ret => exact exec_ret_endsWith s
  | skp x => exact exec_skp_endsWith x s
  | sknp x => exact exec_sknp_endsWith x s
  | ldK x => exact execLdK_endsWith x s
  | drw | ldB | ldStore | ldLoad => exact checked_endsWith rfl rfl
  | seImm | sneImm | seReg | sneReg => exact endsWith_next (State.skipIf_fault _ _) (State.skipIf_state _ _)
  | addReg | sub | shr | subn | shl => exact endsWith_next (State.writeFR_fault _ _ _ _) (State.writeFR_state _ _ _ _)
  | cls | jp | jpV0 | ldImm | addImm | ldReg | orReg | andReg | xorReg | ldI | rnd | ldVxDt | ldDt | ldSt | addI
  | ldF => exact endsWith_next rfl rfl

/-! ### The condition of each code (R200) -/

theorem State.accessFault_eq_some_iff (s : State) (n : Nat) (code : FaultCode) :
    s.accessFault n = some code ↔ code = .memOutOfRange ∧ 1 ≤ n ∧ 4096 ≤ s.i.toNat + n - 1 := by
  have hok := s.dataAccessOk_iff n
  rw [memSize] at hok
  unfold State.accessFault
  split
  case isTrue h => exact iff_of_false nofun (by have := hok.1 h; omega)
  case isFalse h =>
    rw [hok] at h
    simp only [Option.some.injEq, eq_comm (a := code)]
    refine (and_iff_left ?_).symm
    omega

theorem State.faultOf_eq_stackOverflow_iff (s : State) (i : Instr) :
    s.faultOf i = some .stackOverflow ↔ (∃ nnn, i = .call nnn) ∧ s.cfg.stackDepth ≤ s.sp := by
  cases i with
  | call => simp [State.faultOf]
  | _ => simp [State.faultOf, State.accessFault_eq_some_iff]

theorem State.faultOf_eq_stackUnderflow_iff (s : State) (i : Instr) :
    s.faultOf i = some .stackUnderflow ↔ i = .ret ∧ s.sp = 0 := by
  cases i with
  | ret => simp [State.faultOf]
  | _ => simp [State.faultOf, State.accessFault_eq_some_iff]

theorem State.faultOf_ne_pcOutOfRange (s : State) (i : Instr) : s.faultOf i ≠ some .pcOutOfRange := by
  cases i <;> simp [State.faultOf, State.accessFault_eq_some_iff]

theorem State.faultOf_eq_memOutOfRange_iff (s : State) (i : Instr) :
    s.faultOf i = some .memOutOfRange ↔
      (∃ x y n, i = .drw x y n ∧ 1 ≤ n.toNat ∧ 4096 ≤ s.i.toNat + n.toNat - 1) ∨
      (∃ x, i = .ldB x ∧ 4096 ≤ s.i.toNat + 2) ∨
      (∃ x, (i = .ldStore x ∨ i = .ldLoad x) ∧ 4096 ≤ s.i.toNat + x.toNat) := by
  cases i with
  | drw | ldB | ldStore | ldLoad => simp [State.faultOf, State.accessFault_eq_some_iff]
  | _ => simp [State.faultOf]

theorem State.faultOf_eq_keyIndexOutOfRange_iff (s : State) (i : Instr) :
    s.faultOf i = some .keyIndexOutOfRange ↔ ∃ x, (i = .skp x ∨ i = .sknp x) ∧ 15 < (s.reg x).toNat := by
  cases i with
  | skp | sknp => simp [State.faultOf]
  | _ => simp [State.faultOf, State.accessFault_eq_some_iff]

/-! ### The fault of a cycle (40_cycle.md R91, R95) -/

/-- The fault that an enabled cycle raises at `s`: that of the fetch, or that of the instruction fetched. -/
def State.cycleFault (s : State) : Option FaultCode :=
  match s.fetch with
  | none => some .pcOutOfRange
  | some w =>
    match decodeWord s.cfg w with
    | .ok i => s.faultOf i
    | .error _ => none

theorem State.cycleFault_of_fetch_none {s : State} (h : s.fetch = none) : s.cycleFault = some .pcOutOfRange := by
  rw [State.cycleFault, h]

theorem State.cycleFault_of_fetchesInstr {s : State} {i : Instr} (h : s.FetchesInstr i) :
    s.cycleFault = s.faultOf i := by
  obtain ⟨w, hfetch, hdecode⟩ := (s.fetchesInstr_iff i).1 h
  simp only [State.cycleFault, hfetch, hdecode]

theorem State.cycleFault_of_rejected {s : State} {w : Word} {e : Rejection} (hf : s.fetch = some w)
    (hd : decodeWord s.cfg w = .error e) : s.cycleFault = none := by
  simp only [State.cycleFault, hf, hd]

/-- What a fetch can give: nothing, a word that is not recognized, or an instruction (R91, R93). -/
theorem State.fetch_cases (s : State) :
    s.fetch = none ∨ (∃ w e, s.fetch = some w ∧ decodeWord s.cfg w = .error e) ∨ ∃ i, s.FetchesInstr i := by
  cases hf : s.fetch with
  | none => exact .inl rfl
  | some w =>
    cases hd : decodeWord s.cfg w with
    | error e => exact .inr (.inl ⟨w, e, rfl, hd⟩)
    | ok i => exact .inr (.inr ⟨i, (s.fetchesInstr_iff i).2 ⟨w, hf, hd⟩⟩)

/-- Every enabled cycle ends as `cycleFault` says. -/
theorem cycle_endsWith {s : State} (he : s.cycleEnabled = true) : s.EndsWith s.cycleFault (cycle s) := by
  obtain hf | ⟨w, e, hf, hd⟩ | ⟨i, hi⟩ := s.fetch_cases
  · rw [State.cycleFault_of_fetch_none hf]
    exact cycle_of_fetch_none he hf
  · rw [State.cycleFault_of_rejected hf hd, cycle_of_rejected he hf hd]
    exact endsWith_next rfl rfl
  · obtain ⟨hrun, hwait⟩ := s.cycleEnabled_iff.1 he
    rw [State.cycleFault_of_fetchesInstr hi, cycle_of_fetchesInstr hi hrun hwait]
    exact exec_endsWith i s

theorem cycle_of_cycleFault_eq_some {s : State} {code : FaultCode} (he : s.cycleEnabled = true)
    (h : s.cycleFault = some code) : cycle s = raiseFault code s := by
  have hend := cycle_endsWith he
  rwa [h] at hend

theorem cycle_of_cycleFault_eq_none {s : State} (he : s.cycleEnabled = true) (h : s.cycleFault = none) :
    ∃ t, cycle s = .next t ∧ t.fault = s.fault ∧ t.state = s.state := by
  have hend := cycle_endsWith he
  rwa [h] at hend

/-- From a state without a recorded fault, a cycle records exactly its own. -/
theorem cycle_fault {s t : State} (he : s.cycleEnabled = true) (hsafe : s.fault = none) (h : cycle s = .next t) :
    t.fault = s.cycleFault := by
  cases hf : s.cycleFault with
  | none =>
    obtain ⟨u, hu, hfault, -⟩ := cycle_of_cycleFault_eq_none he hf
    cases hu.symm.trans h
    rw [hfault, hsafe]
  | some code =>
    cases (cycle_of_cycleFault_eq_some he hf).symm.trans h
    rfl

/-- Settles O18: a gated cycle records no fault, and an enabled one that records a code has taken it at `s`. -/
theorem faultsArePrecise : Obligations.FaultsArePrecise := by
  intro s t code hsafe hcycle hcode
  by_cases he : s.cycleEnabled = true
  · have hown : s.cycleFault = some code := by rw [← cycle_fault he hsafe hcycle, hcode]
    cases (cycle_of_cycleFault_eq_some he hown).symm.trans hcycle
    rfl
  · cases (cycle_of_gated he).symm.trans hcycle
    cases hsafe.symm.trans hcode

/-! ### Each fault on its condition (R200) -/

theorem State.cycleFault_eq_pcOutOfRange_iff (s : State) :
    s.cycleFault = some .pcOutOfRange ↔ s.fetch = none := by
  refine ⟨fun h => ?_, State.cycleFault_of_fetch_none⟩
  obtain hf | ⟨w, e, hf, hd⟩ | ⟨i, hi⟩ := s.fetch_cases
  · exact hf
  · cases (State.cycleFault_of_rejected hf hd).symm.trans h
  · exact absurd ((State.cycleFault_of_fetchesInstr hi).symm.trans h) (s.faultOf_ne_pcOutOfRange i)

/-- Every other fault of a cycle is that of the instruction at PC. -/
theorem State.cycleFault_eq_some_iff {s : State} {code : FaultCode} (hcode : code ≠ .pcOutOfRange) :
    s.cycleFault = some code ↔ ∃ i, s.FetchesInstr i ∧ s.faultOf i = some code := by
  refine ⟨fun h => ?_, fun ⟨i, hi, hfault⟩ => (State.cycleFault_of_fetchesInstr hi).trans hfault⟩
  obtain hf | ⟨w, e, hf, hd⟩ | ⟨i, hi⟩ := s.fetch_cases
  · cases (State.cycleFault_of_fetch_none hf).symm.trans h
    exact absurd rfl hcode
  · cases (State.cycleFault_of_rejected hf hd).symm.trans h
  · exact ⟨i, hi, (State.cycleFault_of_fetchesInstr hi).symm.trans h⟩

theorem State.cycleFault_eq_stackOverflow_iff (s : State) :
    s.cycleFault = some .stackOverflow ↔ (∃ nnn, s.FetchesInstr (.call nnn)) ∧ s.cfg.stackDepth ≤ s.sp := by
  simp only [State.cycleFault_eq_some_iff (show FaultCode.stackOverflow ≠ .pcOutOfRange by decide),
    State.faultOf_eq_stackOverflow_iff]
  constructor
  · rintro ⟨_, hi, ⟨nnn, rfl⟩, hfull⟩
    exact ⟨⟨nnn, hi⟩, hfull⟩
  · rintro ⟨⟨nnn, hi⟩, hfull⟩
    exact ⟨_, hi, ⟨nnn, rfl⟩, hfull⟩

theorem State.cycleFault_eq_stackUnderflow_iff (s : State) :
    s.cycleFault = some .stackUnderflow ↔ s.FetchesInstr .ret ∧ s.sp = 0 := by
  simp only [State.cycleFault_eq_some_iff (show FaultCode.stackUnderflow ≠ .pcOutOfRange by decide),
    State.faultOf_eq_stackUnderflow_iff]
  constructor
  · rintro ⟨_, hi, rfl, hempty⟩
    exact ⟨hi, hempty⟩
  · rintro ⟨hi, hempty⟩
    exact ⟨_, hi, rfl, hempty⟩

theorem State.cycleFault_eq_memOutOfRange_iff (s : State) :
    s.cycleFault = some .memOutOfRange ↔
      (∃ x y n, s.FetchesInstr (.drw x y n) ∧ 1 ≤ n.toNat ∧ 4096 ≤ s.i.toNat + n.toNat - 1) ∨
      (∃ x, s.FetchesInstr (.ldB x) ∧ 4096 ≤ s.i.toNat + 2) ∨
      (∃ x, (s.FetchesInstr (.ldStore x) ∨ s.FetchesInstr (.ldLoad x)) ∧ 4096 ≤ s.i.toNat + x.toNat) := by
  simp only [State.cycleFault_eq_some_iff (show FaultCode.memOutOfRange ≠ .pcOutOfRange by decide),
    State.faultOf_eq_memOutOfRange_iff]
  constructor
  · rintro ⟨_, hi, ⟨x, y, n, rfl, hn, hout⟩ | ⟨x, rfl, hout⟩ | ⟨x, rfl | rfl, hout⟩⟩
    · exact .inl ⟨x, y, n, hi, hn, hout⟩
    · exact .inr (.inl ⟨x, hi, hout⟩)
    · exact .inr (.inr ⟨x, .inl hi, hout⟩)
    · exact .inr (.inr ⟨x, .inr hi, hout⟩)
  · rintro (⟨x, y, n, hi, hn, hout⟩ | ⟨x, hi, hout⟩ | ⟨x, hi | hi, hout⟩)
    · exact ⟨_, hi, .inl ⟨x, y, n, rfl, hn, hout⟩⟩
    · exact ⟨_, hi, .inr (.inl ⟨x, rfl, hout⟩)⟩
    · exact ⟨_, hi, .inr (.inr ⟨x, .inl rfl, hout⟩)⟩
    · exact ⟨_, hi, .inr (.inr ⟨x, .inr rfl, hout⟩)⟩

theorem State.cycleFault_eq_keyIndexOutOfRange_iff (s : State) :
    s.cycleFault = some .keyIndexOutOfRange ↔
      ∃ x, (s.FetchesInstr (.skp x) ∨ s.FetchesInstr (.sknp x)) ∧ 15 < (s.reg x).toNat := by
  simp only [State.cycleFault_eq_some_iff (show FaultCode.keyIndexOutOfRange ≠ .pcOutOfRange by decide),
    State.faultOf_eq_keyIndexOutOfRange_iff]
  constructor
  · rintro ⟨_, hi, x, rfl | rfl, habove⟩
    · exact ⟨x, .inl hi, habove⟩
    · exact ⟨x, .inr hi, habove⟩
  · rintro ⟨x, hi | hi, habove⟩
    · exact ⟨_, hi, x, .inl rfl, habove⟩
    · exact ⟨_, hi, x, .inr rfl, habove⟩

/-- A Load clears the fault where the program fits, and keeps it where it does not (70_reset_and_hazards.md R241,
R243). -/
theorem load_fault (rom : List Byte) (s : State) : (load rom s).fault = s.fault ∨ (load rom s).fault = none := by
  unfold load
  split
  · exact .inl rfl
  · exact .inr rfl

@[simp] theorem tick_fault (s : State) : (tick s).fault = s.fault := by
  unfold tick; split <;> rfl

@[simp] theorem State.endWait_fault (s : State) (k : Nat) : (s.endWait k).fault = s.fault := by
  unfold State.endWait; split <;> rfl

@[simp] theorem keyDown_fault (k : Nat) (s : State) : (keyDown k s).fault = s.fault := by
  unfold keyDown
  dsimp only
  split_ifs
  · exact State.endWait_fault _ k
  · rfl
  · rfl

@[simp] theorem keyUp_fault (k : Nat) (s : State) : (keyUp k s).fault = s.fault := by
  unfold keyUp; split <;> rfl

@[simp] theorem togglePause_fault (s : State) : (togglePause s).fault = s.fault := by
  unfold togglePause; split <;> rfl

@[simp] theorem quit_fault (s : State) : (quit s).fault = s.fault := rfl

/-- No host operation but an enabled Cycle records a fault. -/
theorem hostOp_fault {op : HostOp} {s t : State} (hop : op ≠ .cycle ∨ s.cycleEnabled = false)
    (h : hostOp op s = .next t) : t.fault = s.fault ∨ t.fault = none := by
  obtain ⟨rom, -, rfl⟩ | ⟨rfl, hcycle⟩ | ⟨-, rfl⟩ | ⟨k, -, -, rfl⟩ | ⟨k, -, -, rfl⟩ | ⟨-, rfl⟩ | ⟨-, rfl⟩ :=
    hostOp_cases h
  · exact load_fault rom s
  · have hgated : ¬ s.cycleEnabled = true := by simpa using hop
    cases (cycle_of_gated hgated).symm.trans hcycle
    exact .inl rfl
  · exact .inl (tick_fault s)
  · exact .inl (keyDown_fault k s)
  · exact .inl (keyUp_fault k s)
  · exact .inl (togglePause_fault s)
  · exact .inl (quit_fault s)

/-- Settles O19: the fault recorded is `cycleFault`, and each code of it has its condition; with SP at most
`STACK_DEPTH` the call's is equality. -/
theorem faultsExactlyAsListed : Obligations.FaultsExactlyAsListed := by
  refine ⟨⟨rfl, rfl, rfl, rfl, rfl⟩, fun s t he hsafe hsp hcycle => ?_, fun op s t => hostOp_fault⟩
  have hfull : s.cfg.stackDepth ≤ s.sp ↔ s.sp = s.cfg.stackDepth := ⟨hsp.antisymm, Eq.ge⟩
  rw [cycle_fault he hsafe hcycle, ← hfull]
  exact ⟨s.cycleFault_eq_stackOverflow_iff, s.cycleFault_eq_stackUnderflow_iff,
    s.cycleFault_eq_pcOutOfRange_iff.trans State.fetch_eq_none, s.cycleFault_eq_memOutOfRange_iff,
    s.cycleFault_eq_keyIndexOutOfRange_iff⟩

/-! ### The trace event (R228; log entry 13) -/

theorem cycleTrace_of_gated {s : State} (h : ¬ s.cycleEnabled = true) : cycleTrace s = none := by
  rw [cycleTrace, if_neg h]

theorem cycleTrace_of_fetch_none {s : State} (hf : s.fetch = none) : cycleTrace s = none := by
  unfold cycleTrace
  rw [hf, ite_self]

/-- Past the fetch, a cycle emits its event where it ends in RUNNING. -/
theorem cycleTrace_of_fetch {s t : State} {w : Word} (he : s.cycleEnabled = true) (hf : s.fetch = some w)
    (h : cycle s = .next t) :
    cycleTrace s = if t.state = .running then some { pc0 := s.pc, word := w } else none := by
  rw [cycle_of_fetch he hf] at h
  simp only [cycleTrace, if_pos he, hf, h]

/-- A cycle that takes a fault ends in HALTED. -/
theorem cycleTrace_of_faulting {s : State} {code : FaultCode} (he : s.cycleEnabled = true)
    (h : s.cycleFault = some code) : cycleTrace s = none := by
  cases hf : s.fetch with
  | none => exact cycleTrace_of_fetch_none hf
  | some w =>
    rw [cycleTrace_of_fetch he hf (cycle_of_cycleFault_eq_some he h)]
    exact if_neg (show RunState.halted ≠ .running by decide)

/-- A cycle that takes no fault has fetched a word, and stays in RUNNING. -/
theorem cycleTrace_of_completing {s : State} (he : s.cycleEnabled = true) (h : s.cycleFault = none) :
    ∃ w, s.fetch = some w ∧ cycleTrace s = some { pc0 := s.pc, word := w } := by
  obtain ⟨t, hcycle, -, hstate⟩ := cycle_of_cycleFault_eq_none he h
  cases hf : s.fetch with
  | none => cases (State.cycleFault_of_fetch_none hf).symm.trans h
  | some w =>
    refine ⟨w, rfl, ?_⟩
    rw [cycleTrace_of_fetch he hf hcycle, hstate, if_pos (s.cycleEnabled_iff.1 he).1]

/-- Settles O57: the fault in the next state is `cycleFault`, which decides between event and none. -/
theorem traceOfCompletedCycles : Obligations.TraceOfCompletedCycles := by
  refine fun s hsafe => ⟨fun he => ?_, fun hgated => cycleTrace_of_gated (by simp [hgated])⟩
  obtain ⟨t, hcycle, -⟩ := cycle_completes s
  refine ⟨t, hcycle, fun hnone => ?_, fun hsome => ?_⟩
  · rw [cycle_fault he hsafe hcycle] at hnone
    exact cycleTrace_of_completing he hnone
  · rw [cycle_fault he hsafe hcycle] at hsome
    obtain ⟨code, hcode⟩ := Option.ne_none_iff_exists'.1 hsome
    exact cycleTrace_of_faulting he hcode

/-! ### The timers (R220, R221) -/

theorem countDown_toNat (t : Byte) : (countDown t).toNat = t.toNat - 1 := by
  unfold countDown
  split
  case isTrue h => rw [h]; rfl
  case isFalse h => bv_omega

theorem tick_of_running {s : State} (h : s.state = .running) :
    tick s = { s with dt := countDown s.dt, st := countDown s.st } := if_pos h

theorem tick_of_not_running {s : State} (h : s.state ≠ .running) : tick s = s := if_neg h

/-- Settles O48: in RUNNING each timer is counted down, and elsewhere Tick is the identity. -/
theorem tickCountsDown : Obligations.TickCountsDown := by
  refine fun s => ⟨fun hrun => ?_, fun hstate => congrArg _ (tick_of_not_running hstate)⟩
  exact ⟨_, congrArg Host.Outcome.next (tick_of_running hrun), rfl, countDown_toNat s.dt, countDown_toNat s.st⟩

/-- Settles O56: the tone is that comparison. -/
theorem toneFollowsSoundTimer : Obligations.ToneFollowsSoundTimer := fun _ => decide_eq_true_iff

/-! ### Key events (R232, R234; 44_keypad.md R174) -/

theorem keyDown_of_takesNoKeys {s : State} (h : ¬ s.takesKeys = true) (k : Nat) : keyDown k s = s := if_neg h

theorem keyUp_of_takesNoKeys {s : State} (h : ¬ s.takesKeys = true) (k : Nat) : keyUp k s = s := if_neg h

theorem hostOp_key_of_takesNoKeys {s : State} {k : Nat} (h : ¬ s.takesKeys = true) (hk : k < 16) :
    hostOp (.keyDown k) s = .next s ∧ hostOp (.keyUp k) s = .next s := by
  rw [hostOp_keyDown hk, hostOp_keyUp hk, keyDown_of_takesNoKeys h, keyUp_of_takesNoKeys h]
  exact ⟨rfl, rfl⟩

/-- Where no key wait is there to end, or the machine is not RUNNING to end it, a flag is all KeyDown writes. -/
theorem keyDown_of_no_wait {s : State} (h : s.takesKeys = true) (hwait : s.state ≠ .running ∨ s.wait = none)
    (k : Nat) : keyDown k s = { s with key := s.key.setIfInBounds k true } := by
  rw [keyDown, if_pos h]
  dsimp only
  split
  case isTrue hrun => rw [State.endWait, hwait.resolve_left (not_not_intro hrun)]
  case isFalse => rfl

/-- With a wait pending or none, KeyDown writes the flag it names and leaves no wait in RUNNING (44_keypad.md R173). -/
theorem keyDown_key_wait {s : State} (h : s.takesKeys = true) (k : Nat) :
    (keyDown k s).key = s.key.setIfInBounds k true ∧ (s.state = .running → (keyDown k s).wait = none) := by
  by_cases hpending : s.state ≠ .running ∨ s.wait = none
  · rw [keyDown_of_no_wait h hpending]
    exact ⟨rfl, fun hrun => hpending.resolve_left (not_not_intro hrun)⟩
  · push Not at hpending
    obtain ⟨hrun, hwait⟩ := hpending
    obtain ⟨x, hx⟩ := Option.ne_none_iff_exists'.1 hwait
    rw [keyDown_of_wait hrun hx]
    exact ⟨rfl, fun _ => rfl⟩

theorem hostOp_keyDown_refused {k : Nat} (hk : 16 ≤ k) (s : State) :
    hostOp (.keyDown k) s = .refused .keyIndexRefused := if_neg (Nat.not_lt.2 hk)

theorem hostOp_keyUp_refused {k : Nat} (hk : 16 ≤ k) (s : State) :
    hostOp (.keyUp k) s = .refused .keyIndexRefused := if_neg (Nat.not_lt.2 hk)

/-- Settles O49: the index decides on the refusal, and the controller state on the effect. -/
theorem keyEventsSetFlags : Obligations.KeyEventsSetFlags := by
  refine fun s k => ⟨fun hk hstate => ?_, fun hk hrun hpaused => ?_,
    fun hk => ⟨hostOp_keyDown_refused hk s, hostOp_keyUp_refused hk s⟩⟩
  · have htakes := s.takesKeys_iff.2 hstate
    obtain ⟨hkey, hwait⟩ := keyDown_key_wait htakes k
    refine ⟨⟨_, hostOp_keyDown hk s, State.keyFlag_of_key_set hk hkey, fun hno => ?_, hwait⟩,
      ⟨_, hostOp_keyUp hk s, ?_⟩⟩
    · rw [keyDown_of_no_wait htakes (hno.imp_left fun hpaused => by simp [hpaused])]
    · rw [keyUp_of_takesKeys htakes]
      exact ⟨rfl, State.keyFlag_of_key_set hk rfl⟩
  · have htakes : ¬ s.takesKeys = true := by simp [State.takesKeys_iff, hrun, hpaused]
    exact hostOp_key_of_takesNoKeys htakes hk

/-! ### The controller (R230, R231) -/

theorem hostOp_togglePause (s : State) : hostOp .togglePause s = .next (togglePause s) := rfl

/-- Settles O50: one clause for each controller state. -/
theorem togglePauseSwaps : Obligations.TogglePauseSwaps := by
  intro s
  rw [hostOp_togglePause, togglePause]
  refine ⟨fun h => ?_, fun h => ?_, fun h => ?_, fun h => ?_⟩ <;> rw [h]

/-- Settles O51: Quit has no condition. -/
theorem quitHalts : Obligations.QuitHalts := fun _ => rfl

/-! ### The halted machine (R232) -/

section
variable {s : State} (h : s.state = .halted)
include h

theorem cycle_of_halted : cycle s = .next s := cycle_of_gated (by simp [State.cycleEnabled_iff, h])

theorem tick_of_halted : tick s = s := tick_of_not_running (by simp [h])

theorem takesNoKeys_of_halted : ¬ s.takesKeys = true := by simp [State.takesKeys_iff, h]

theorem togglePause_of_halted : togglePause s = s := by rw [togglePause, h]

theorem quit_of_halted : quit s = s := by rw [quit, ← h]

/-- On a halted machine every operation but a Load leaves the state as it is, or is refused. -/
theorem hostOp_of_halted {op : HostOp} {t : State} (hop : hostOp op s = .next t) :
    (∃ rom, op = .load rom) ∨ t = s := by
  obtain ⟨rom, hload, -⟩ | ⟨-, hcycle⟩ | ⟨-, rfl⟩ | ⟨k, -, -, rfl⟩ | ⟨k, -, -, rfl⟩ | ⟨-, rfl⟩ | ⟨-, rfl⟩ :=
    hostOp_cases hop
  · exact .inl ⟨rom, hload⟩
  · cases (cycle_of_halted h).symm.trans hcycle
    exact .inr rfl
  · exact .inr (tick_of_halted h)
  · exact .inr (keyDown_of_takesNoKeys (takesNoKeys_of_halted h) k)
  · exact .inr (keyUp_of_takesNoKeys (takesNoKeys_of_halted h) k)
  · exact .inr (togglePause_of_halted h)
  · exact .inr (quit_of_halted h)

end

/-- Settles O52: each operation is taken in turn; what is not a Load ends in `s`, which is not RUNNING. -/
theorem haltedIsTerminal : Obligations.HaltedIsTerminal := by
  refine fun s h => ⟨cycle_of_halted h, congrArg _ (tick_of_halted h), congrArg _ (togglePause_of_halted h),
    congrArg _ (quit_of_halted h), fun _ => hostOp_key_of_takesNoKeys (takesNoKeys_of_halted h),
    fun op t hop hrun => ?_⟩
  obtain hload | rfl := hostOp_of_halted h hop
  · exact hload
  · cases h.symm.trans hrun

end Sys2Proof.Machine
end

section
/-! PROOFS. Power-on and Load (70_reset_and_hazards.md). A Load that fits is two runs of writes, the font below `ENTRY`
and the program from there on, so each address is written by one run at most. -/

namespace Sys2Proof.Machine

/-! ### Reading inside and outside a run of writes (20_memory.md R56, R60) -/

theorem Memory.read_writeBytes_inside (m : Memory) (a : Nat) {bs : List Byte} {k : Nat} (h : k < bs.length) :
    Memory.read (Memory.writeBytes m a bs) (a + k) = bs[k] := by
  rw [Memory.read_writeBytes, if_pos (Nat.le_add_right a k), Nat.add_sub_cancel_left, List.getElem?_eq_getElem h,
    Option.getD_some]

theorem Memory.read_writeBytes_outside (m : Memory) {a : Nat} {bs : List Byte} {k : Nat}
    (h : k < a ∨ a + bs.length ≤ k) : Memory.read (Memory.writeBytes m a bs) k = Memory.read m k := by
  rw [Memory.read_writeBytes]
  split
  case isTrue hle => rw [List.getElem?_eq_none (by omega), Option.getD_none]
  case isFalse => rfl

/-! ### Memory after a Load (R241, R242) -/

/-- The program is written last, so nothing covers it. -/
theorem read_loadMemory_rom (s : State) {rom : List Byte} {k : Nat} (h : k < rom.length) :
    Memory.read (loadMemory s rom) (s.cfg.entry + k) = rom[k] :=
  Memory.read_writeBytes_inside _ _ h

/-- With `ENTRY` legal the program does not reach the font (R246). -/
theorem read_loadMemory_font {s : State} (hentry : 80 ≤ s.cfg.entry) (rom : List Byte) {k : Nat} (h : k < 80) :
    Memory.read (loadMemory s rom) k = s.cfg.font[k] := by
  have hfont : Memory.read (Memory.writeBytes s.memory fontBase s.cfg.font.toList) (fontBase + k) = s.cfg.font[k] :=
    (Memory.read_writeBytes_inside _ _ (by simpa using h)).trans (Vector.getElem_toList _)
  rw [fontBase, Nat.zero_add] at hfont
  exact (Memory.read_writeBytes_outside _ (.inl (h.trans_le hentry))).trans hfont

theorem read_loadMemory_outside {s : State} {rom : List Byte} {a : Nat} (hfont : 80 ≤ a)
    (hrom : a < s.cfg.entry ∨ s.cfg.entry + rom.length ≤ a) :
    Memory.read (loadMemory s rom) a = Memory.read s.memory a := by
  have hpast : fontBase + s.cfg.font.toList.length ≤ a := by simpa [fontBase] using hfont
  exact (Memory.read_writeBytes_outside _ hrom).trans (Memory.read_writeBytes_outside _ (.inr hpast))

/-! ### The two outcomes of a Load (R241, R243) -/

theorem load_of_fits {s : State} {rom : List Byte} (h : rom.length ≤ 4096 - s.cfg.entry) :
    load rom s = { s with memory := loadMemory s rom, pc := BitVec.ofNat 16 s.cfg.entry, stack := [],
                          state := .running, wait := none, fault := none, loadResult := some .loaded } :=
  if_neg (mt (romTooLarge_iff s.cfg rom).1 h.not_gt)

theorem load_of_tooLarge {s : State} {rom : List Byte} (h : 4096 - s.cfg.entry < rom.length) :
    load rom s = { s with loadResult := some .romTooLarge } :=
  if_pos ((romTooLarge_iff s.cfg rom).2 h)

/-- Settles O53: a legal `ENTRY` lies above the font and is a 16-bit address. -/
theorem loadStartsMachineOrReports : Obligations.LoadStartsMachineOrReports := by
  refine fun s rom hlegal => ⟨fun hfits => ?_, fun hlarge => congrArg Host.Outcome.next (load_of_tooLarge hlarge)⟩
  obtain ⟨-, -, hentry, hend, -, -⟩ := s.cfg.legal_iff.1 hlegal
  have hpc : (BitVec.ofNat 16 s.cfg.entry).toNat = s.cfg.entry := by
    rw [BitVec.toNat_ofNat]; omega
  exact ⟨_, congrArg Host.Outcome.next (load_of_fits hfits), rfl, hpc, fun _ => read_loadMemory_font hentry rom,
    fun _ => read_loadMemory_rom s, fun _ => read_loadMemory_outside⟩

/-- Settles O54: the default `ENTRY`, 0x200, leaves room for 3584 bytes. -/
theorem loadBoundary : Obligations.LoadBoundary := by
  intro s rom hcfg
  have hentry : s.cfg.entry = 0x200 := by rw [hcfg]; rfl
  have hlegal : s.cfg.legal = true := by rw [hcfg]; decide
  obtain ⟨hfit, hlarge⟩ := loadStartsMachineOrReports s rom hlegal
  rw [hentry] at hfit hlarge
  refine ⟨fun hlen => ?_, fun hlen => hlarge (by omega)⟩
  obtain ⟨t, hload, heq, -, -, hrom, -⟩ := hfit (by omega)
  exact ⟨t, hload, congrArg State.loadResult heq, fun k hk => hrom k (by omega)⟩

/-! ### Power-on (R240) -/

theorem togglePause_of_takesNoKeys {s : State} (h : ¬ s.takesKeys = true) : togglePause s = s := by
  rw [s.takesKeys_iff, not_or] at h
  obtain ⟨hrun, hpaused⟩ := h
  unfold togglePause
  split
  case h_1 hstate => exact absurd hstate hrun
  case h_2 hstate => exact absurd hstate hpaused
  case h_3 | h_4 => rfl

/-- Neither RUNNING nor PAUSED, a machine is kept as it is by every operation but Load and Quit. -/
theorem hostOp_of_takesNoKeys {op : HostOp} {s t : State} (h : ¬ s.takesKeys = true) (hop : hostOp op s = .next t) :
    (∃ rom, op = .load rom) ∨ t = s ∨ t = quit s := by
  have hrun : s.state ≠ .running := fun hrun => h (s.takesKeys_iff.2 (.inl hrun))
  obtain ⟨rom, hload, -⟩ | ⟨-, hcycle⟩ | ⟨-, rfl⟩ | ⟨k, -, -, rfl⟩ | ⟨k, -, -, rfl⟩ | ⟨-, rfl⟩ | ⟨-, rfl⟩ :=
    hostOp_cases hop
  · exact .inl ⟨rom, hload⟩
  · have hgated : cycle s = .next s := cycle_of_gated fun he => hrun (s.cycleEnabled_iff.1 he).1
    cases hgated.symm.trans hcycle
    exact .inr (.inl rfl)
  · exact .inr (.inl (tick_of_not_running hrun))
  · exact .inr (.inl (keyDown_of_takesNoKeys h k))
  · exact .inr (.inl (keyUp_of_takesNoKeys h k))
  · exact .inr (.inl (togglePause_of_takesNoKeys h))
  · exact .inr (.inr rfl)

theorem reset_reg (x : Nibble) : State.reset.reg x = 0#8 := Vector.getElem_replicate x.isLt

theorem reset_keyFlag {k : Nat} (hk : k < 16) : State.reset.keyFlag k = some false :=
  Vector.getElem?_replicate_of_lt hk

/-- Settles O55: each element holds its power-on value, and neither that state nor a halted one is RUNNING. -/
theorem powerOnValues : Obligations.PowerOnValues := by
  refine ⟨fun _ => rfl, reset_reg, rfl, rfl, rfl, rfl, rfl, fun _ _ => rfl, fun _ => reset_keyFlag, rfl, rfl,
    fun op t hop hrun => ?_⟩
  obtain hload | rfl | rfl := hostOp_of_takesNoKeys (by decide) hop
  · exact hload
  · cases hrun
  · cases hrun

end Sys2Proof.Machine
end
